-- ==== Sys2Proof/Word.lean ====
section
/-! DEFINITION. The words of the ZIP LED colour core: their widths, as spec/30_encoding.md R40 to R42 give them. -/

namespace Sys2Proof

/-- One byte: a buffer byte (R17), a channel (R55), `BRIGHTNESS` (R15), `PIN` (R16), an opcode (R40). -/
abbrev Byte := BitVec 8

/-- One 32-bit operand field `a` or `d` (R40), one 32-bit register (R12 to R14), or the `data` of a response (R42). -/
abbrev Word := BitVec 32

/-- A 16-bit operand field `d[31:16]` or `d[15:0]` (R40, R41). -/
abbrev Half := BitVec 16

/-- `CMD72`: the one command format, 72 bits (R40). -/
abbrev CommandWord := BitVec 72

/-- `RSP36`: the one response format, 36 bits (R42). -/
abbrev ResponseWord := BitVec 36

end Sys2Proof
end

