-- ==== Sys2Proof/Syntax.lean ====
section
/-! DEFINITION. The syntax of the fifteen commands (spec/30_encoding.md R41, R44): one constructor per row of
spec/opcode_table.json, its arguments the operand fields of R41 in that order, as the bits the command word holds. -/

namespace Sys2Proof

/-- The channel layouts (R11): "an enumerated value over `{RGB, RGB_W, RGB_alt}`". -/
inductive Layout where
  /-- `MODE` 0, RGB: green, red, blue. -/
  | rgb
  /-- `MODE` 1, RGB_W: green, red, blue, white. -/
  | rgbW
  /-- `MODE` 2, RGB_alt: red, green, blue. -/
  | rgbAlt
  deriving DecidableEq, Repr

/-- The commands of R44. Fields a command ignores (R47) are no part of its syntax. -/
inductive Instr where
  /-- `PACK red, green, blue` (R56): `a`, `d[31:16]`, `d[15:0]`. -/
  | pack (red : Word) (green blue : Half)
  /-- `UNPR packed` (R57): `d`. -/
  | unpr (packed : Word)
  /-- `UNPG packed` (R58): `d`. -/
  | unpg (packed : Word)
  /-- `UNPB packed` (R59): `d`. -/
  | unpb (packed : Word)
  /-- `HSL hue, sat, lum` (R65): `a`, `d[31:16]`, `d[15:0]`. -/
  | hsl (hue : Word) (sat lum : Half)
  /-- `CREATE pixelCount, mode, pin` (R80): `a`, `d[1:0]`, `d[15:8]`. `mode = 3` is reserved (R46). -/
  | create (pixelCount : Word) (mode : BitVec 2) (pin : Byte)
  /-- `SETRANGE start, length` (R81): `a`, `d`. -/
  | setrange (start length : Word)
  /-- `SETBR value` (R82): `d`. -/
  | setbr (value : Word)
  /-- `SETBRP percent` (R83): `d`. -/
  | setbrp (percent : Word)
  /-- `SETPIX index, rgb` (R92): `a`, `d`. -/
  | setpix (index rgb : Word)
  /-- `GETPIX index` (R93): `a`. -/
  | getpix (index : Word)
  /-- `FILL rgb` (R94): `d`. -/
  | fill (rgb : Word)
  /-- `CLEAR` (R95). -/
  | clear
  /-- `ROTATE offset` (R96): `a`. -/
  | rotate (offset : Word)
  /-- `SHOW` (R97). -/
  | showBuf
  deriving DecidableEq, Repr

end Sys2Proof
end

