-- ==== Sys2Proof/WellFormed.lean ====
section
/-! DEFINITION. Which terms of `Instr` are commands: every operand value is legal but for the reserved layout of CREATE
(spec/30_encoding.md R46). Every other restriction on an operand is a width, which the type of the field says. -/

namespace Sys2Proof

/-- The check (R46): "CREATE with `d[1:0] = 3` is ILLEGAL". -/
def Instr.wf : Instr → Bool
  | .pack _ _ _ => true
  | .unpr _ => true
  | .unpg _ => true
  | .unpb _ => true
  | .hsl _ _ _ => true
  | .create _ mode _ => mode != 3#2
  | .setrange _ _ => true
  | .setbr _ => true
  | .setbrp _ => true
  | .setpix _ _ => true
  | .getpix _ => true
  | .fill _ => true
  | .clear => true
  | .rotate _ => true
  | .showBuf => true

end Sys2Proof
end

