-- ==== Sys2Proof/Decode.lean ====
section
/-! DEFINITION. Decoding a command word, total on all 2^72 words and rejecting by name, and the encoder
(spec/30_encoding.md R40, R41, R44 to R47, R49). -/

namespace Sys2Proof

/-- Why a word spells no command. Either way the step answers ILLEGAL (R121). -/
inductive DecodeError where
  /-- `op` is not in the opcode map (R45). -/
  | reservedOpcode (op : Byte)
  /-- CREATE with `d[1:0] = 3` (R46). -/
  | reservedLayout
  deriving DecidableEq, Repr

/-- `op`, bits 71:64 (R40). -/
def opField (w : CommandWord) : Byte := w.extractLsb' 64 8

/-- `a`, bits 63:32 (R40). -/
def aField (w : CommandWord) : Word := w.extractLsb' 32 32

/-- `d`, bits 31:0 (R40). -/
def dField (w : CommandWord) : Word := w.extractLsb' 0 32

/-- `d[31:16]` of an operand field (R41). -/
def hiHalf (d : Word) : Half := d.extractLsb' 16 16

/-- `d[15:0]` of an operand field (R41). -/
def loHalf (d : Word) : Half := d.extractLsb' 0 16

/-- The word `{op, a, d}` (R40). -/
def commandWord (op : Byte) (a d : Word) : CommandWord := op ++ a ++ d

/-- The opcode of each command (R44). -/
def Instr.opcode : Instr → Byte
  | .pack _ _ _ => 0x01#8
  | .unpr _ => 0x02#8
  | .unpg _ => 0x03#8
  | .unpb _ => 0x04#8
  | .hsl _ _ _ => 0x08#8
  | .create _ _ _ => 0x10#8
  | .setrange _ _ => 0x11#8
  | .setbr _ => 0x12#8
  | .setbrp _ => 0x13#8
  | .setpix _ _ => 0x14#8
  | .getpix _ => 0x15#8
  | .fill _ => 0x16#8
  | .clear => 0x17#8
  | .rotate _ => 0x18#8
  | .showBuf => 0x19#8

/-- CREATE's operands (R41): `pixelCount = a`, `mode = d[1:0]`, `pin = d[15:8]`; the reserved layout is rejected
here, by name (R40: the decoder looks, "for CREATE only, at `d[1:0]` to tell a legal from a reserved layout"). -/
def decodeCreate (a d : Word) : Except DecodeError Instr :=
  if d.extractLsb' 0 2 = 3#2 then .error .reservedLayout
  else .ok (.create a (d.extractLsb' 0 2) (d.extractLsb' 8 8))

/-- The opcode map (R44) with the operand fields of R41; every other `op` is reserved (R45). -/
def decodeFields (op : Byte) (a d : Word) : Except DecodeError Instr :=
  match op with
  | 0x01#8 => .ok (.pack a (hiHalf d) (loHalf d))
  | 0x02#8 => .ok (.unpr d)
  | 0x03#8 => .ok (.unpg d)
  | 0x04#8 => .ok (.unpb d)
  | 0x08#8 => .ok (.hsl a (hiHalf d) (loHalf d))
  | 0x10#8 => decodeCreate a d
  | 0x11#8 => .ok (.setrange a d)
  | 0x12#8 => .ok (.setbr d)
  | 0x13#8 => .ok (.setbrp d)
  | 0x14#8 => .ok (.setpix a d)
  | 0x15#8 => .ok (.getpix a)
  | 0x16#8 => .ok (.fill d)
  | 0x17#8 => .ok .clear
  | 0x18#8 => .ok (.rotate a)
  | 0x19#8 => .ok .showBuf
  | _ => .error (.reservedOpcode op)

/-- The decoder: "every one of the 2^72 words either selects one row of rule R44 or is ILLEGAL" (R45). -/
def decode (w : CommandWord) : Except DecodeError Instr := decodeFields (opField w) (aField w) (dField w)

/-- The operand fields `a` and `d` of a command, with zeros in every ignored bit (R41, R47, R49). -/
def Instr.operands : Instr → Word × Word
  | .pack red green blue => (red, green ++ blue)
  | .unpr packed => (0#32, packed)
  | .unpg packed => (0#32, packed)
  | .unpb packed => (0#32, packed)
  | .hsl hue sat lum => (hue, sat ++ lum)
  | .create pixelCount mode pin => (pixelCount, 0#16 ++ pin ++ 0#6 ++ mode)
  | .setrange start length => (start, length)
  | .setbr value => (0#32, value)
  | .setbrp percent => (0#32, percent)
  | .setpix index rgb => (index, rgb)
  | .getpix index => (index, 0#32)
  | .fill rgb => (0#32, rgb)
  | .clear => (0#32, 0#32)
  | .rotate offset => (offset, 0#32)
  | .showBuf => (0#32, 0#32)

/-- The encoder (R40, R49): the word of a well-formed command, zeros in the bits the command ignores. -/
def encode (i : Instr) : CommandWord := commandWord i.opcode i.operands.1 i.operands.2

/-- The bits of the operand fields `a` and `d` that R41 names for a command. The bits 31:24 of a packed colour, which R47
also lists as ignored, are bits of its operand `d` (R41: "bits 31:24 are ignored"); the meaning masks them. -/
def Instr.operandBits : Instr → Word × Word
  | .pack _ _ _ => (0xFFFFFFFF#32, 0xFFFFFFFF#32)
  | .unpr _ => (0#32, 0xFFFFFFFF#32)
  | .unpg _ => (0#32, 0xFFFFFFFF#32)
  | .unpb _ => (0#32, 0xFFFFFFFF#32)
  | .hsl _ _ _ => (0xFFFFFFFF#32, 0xFFFFFFFF#32)
  | .create _ _ _ => (0xFFFFFFFF#32, 0x0000FF03#32)
  | .setrange _ _ => (0xFFFFFFFF#32, 0xFFFFFFFF#32)
  | .setbr _ => (0#32, 0xFFFFFFFF#32)
  | .setbrp _ => (0#32, 0xFFFFFFFF#32)
  | .setpix _ _ => (0xFFFFFFFF#32, 0xFFFFFFFF#32)
  | .getpix _ => (0xFFFFFFFF#32, 0#32)
  | .fill _ => (0#32, 0xFFFFFFFF#32)
  | .clear => (0#32, 0#32)
  | .rotate _ => (0xFFFFFFFF#32, 0#32)
  | .showBuf => (0#32, 0#32)

/-- The bits of the command word that decoding reads for a command: `op` and its operand bits. -/
def Instr.significantBits (i : Instr) : CommandWord := commandWord 0xFF#8 i.operandBits.1 i.operandBits.2

/-- The opcode map as spec/opcode_table.json lists it (R44): mnemonic, match. Every mask is `0xFF0000000000000000`. -/
def opcodeTable : List (String × CommandWord) :=
  [("PACK", 0x010000000000000000#72), ("UNPR", 0x020000000000000000#72), ("UNPG", 0x030000000000000000#72),
   ("UNPB", 0x040000000000000000#72), ("HSL", 0x080000000000000000#72), ("CREATE", 0x100000000000000000#72),
   ("SETRANGE", 0x110000000000000000#72), ("SETBR", 0x120000000000000000#72), ("SETBRP", 0x130000000000000000#72),
   ("SETPIX", 0x140000000000000000#72), ("GETPIX", 0x150000000000000000#72), ("FILL", 0x160000000000000000#72),
   ("CLEAR", 0x170000000000000000#72), ("ROTATE", 0x180000000000000000#72), ("SHOW", 0x190000000000000000#72)]

/-- The mask of every row (R44). -/
def opcodeMask : CommandWord := 0xFF0000000000000000#72

/-- The command word whose low `nbits` bits are those of `w`, the rest zero; bit 0 is the least significant bit of the
72-bit word, as spec/opcode_table.json numbers them. -/
def tableWord (nbits w : Nat) : CommandWord := BitVec.ofNat 72 (w % 2 ^ nbits)

/-- What the decoder reads from an instruction given as the opcode table numbers its bits. -/
def decodeTableWord (nbits w : Nat) : Option Instr :=
  match decode (tableWord nbits w) with
  | .ok i => some i
  | .error _ => none

end Sys2Proof
end

