-- ==== Sys2Proof/Config.lean ====
section
/-! DEFINITION. What the spec leaves to an implementation (spec/00_scope.md R5) and the one free value of the model. -/

namespace Sys2Proof

/-- FREE VALUE (DESIGN CHOICE, log 2). What the 32-bit register `SIZE` (R12) holds after a CREATE whose exact byte
count, the argument, fits `CAP` (R80) but not 32 bits. The spec states no result there: it gives `SIZE` 32 bits and
`CAP` no bound. No body: nothing can be proved about the value. With `CAP < 2^32` it is never used. -/
opaque Config.oversizeSize : Nat → Word

/-- The capacity `State.reset` starts with (DESIGN CHOICE, log 3). `CAP` is OPEN (R5, D10): it is the field `cap` of
`State`, and every statement about the machine holds for every value of that field. 16 is the capacity the spec's
own vectors V4 and P4 assume (spec/95_test_vectors.md). -/
def Config.resetCap : Nat := 16

/-- The two OPEN parameters of the host sequence `create` (R5, R106, D13). They belong to the host, not to the block.
`DEFAULT_MODE` is RGB or RGB_alt, "so RGB_W is excluded" (R5): `alt` says which of the two. -/
structure Config.HostDefaults where
  /-- `DEFAULT_MODE` is RGB_alt when this holds, else RGB. -/
  alt : Bool
  /-- `DEFAULT_PIN`, 0 to 255. -/
  pin : Byte
  deriving DecidableEq, Repr

/-- `DEFAULT_MODE` (R5). -/
def Config.HostDefaults.mode (c : Config.HostDefaults) : Layout := if c.alt then .rgbAlt else .rgb

end Sys2Proof
end

