-- ==== Sys2Proof/Machine/State.lean ====
section
/-! DEFINITION. The state of the machine (spec/10_state.md), its reset value, and the reasons a step can stop. -/

namespace Sys2Proof.Machine

/-- The status of a response (R43). Status values 4 to 15 are never produced, so they have no name. -/
inductive Status where
  /-- 0, OK: done, every "silent no-op" included. -/
  | ok
  /-- 1, ILLEGAL: "the word spells no command" (R121). -/
  | illegal
  /-- 2, ALLOC: CREATE does not fit `CAP` (R122). -/
  | alloc
  /-- 3, RANGE: SETRANGE does not fit the live buffer (R123). -/
  | range
  deriving DecidableEq, Repr

/-- One response (R42): a status and 32 bits of data. -/
structure Response where
  status : Status
  data : Word
  deriving DecidableEq, Repr

/-- One output event (R48). -/
inductive Event where
  /-- `Transmit(pin, bytes)`, emitted by SHOW. -/
  | transmit (pin : Byte) (bytes : List Byte)
  /-- `PinWrite(pin, level)`, emitted by a successful CREATE with level 0. -/
  | pinWrite (pin : Byte) (level : Bool)
  deriving DecidableEq, Repr

/-- The buffer memory: pairs of an address and the byte it holds, addresses strictly rising (`Memory.wf`). -/
abbrev Memory := List Host.Cell

/-- The state: the six registers and the buffer of R10, the parameter `CAP`, and the inputs and outputs of the steps
(R4, R48), which are the model's own fields (log 1, log 3). -/
structure State where
  /-- `CAP` (R5, R17): the capacity of the buffer memory in bytes, a parameter. No command writes it. -/
  cap : Nat
  /-- `MODE` (R11). -/
  mode : Layout
  /-- `SIZE` (R12): the number of live bytes. -/
  size : Word
  /-- `START` (R13): the first addressable physical pixel. -/
  start : Word
  /-- `LENGTH` (R14): the number of logical pixels. -/
  length : Word
  /-- `BRIGHTNESS` (R15). -/
  brightness : Byte
  /-- `PIN` (R16). -/
  pin : Byte
  /-- `buf` (R17): the bytes that hold a value. -/
  buf : Memory
  /-- The command words the host has presented and the core has not taken, oldest first (R4). -/
  commands : List CommandWord
  /-- The responses given, oldest first (R42). -/
  responses : List Response
  /-- The output events emitted, oldest first (R48). -/
  events : List Event
  deriving DecidableEq, Repr

/-- Why the machine stops. All three are raised by the byte accesses of Machine/Ops.lean only, in states that break the
invariant R18: "There is therefore no bounds fault in the core, and none is defined" (R31). Each is SAFE: the model
stops where the spec gives the access no meaning (R8: `MemRead` and `MemWrite` need `0 <= addr < SIZE`). Log 4. -/
inductive Fault where
  /-- An access at an address at or above `CAP`: no such address exists (R25). Safe. -/
  | outsideBuffer (addr : Nat)
  /-- An access at an address below `CAP` and at or above `SIZE`: a dead byte (R17). Safe. -/
  | deadByte (addr : Nat)
  /-- A read of a live byte that holds no value: only in states where a live byte was never made live by a CREATE (R32).
  Safe. -/
  | unwrittenByte (addr : Nat)
  deriving DecidableEq, Repr

/-- Why the machine refuses an instruction. -/
inductive Refusal where
  /-- Raised by an arm of `exec` whose instruction has no meaning yet. No arm of this model raises it. Safe. -/
  | notModelled (mnemonic : String)
  deriving DecidableEq, Repr

/-- The state right after power-on with a buffer memory of `cap` bytes (R21, R136): every buffer byte dead and without
a value, no command presented, no response and no event (R135). -/
def State.resetWith (cap : Nat) : State :=
  { cap := cap, mode := .rgb, size := 0#32, start := 0#32, length := 0#32, brightness := 255#8, pin := 0#8,
    buf := [], commands := [], responses := [], events := [] }

/-- The state right after reset (R21, R136). Its capacity is the model's own choice (log 3). -/
def State.reset : State := State.resetWith Config.resetCap

end Sys2Proof.Machine
end

