-- ==== Sys2Proof/Machine/Operands.lean ====
section
/-! DEFINITION. Operand views, the layouts' stride and channel order, packed colours and pixel addresses
(spec/00_scope.md R6, spec/30_encoding.md R41, spec/10_state.md R11, R20, spec/20_memory.md R26, R27, spec/40_codec.md). -/

namespace Sys2Proof.Machine

/-- `clamp(lo, hi, v)` (R6). -/
def clamp (lo hi v : Int) : Int := if v < lo then lo else if hi < v then hi else v

/-- The layout a 2-bit number names (R11); 3 is reserved. -/
def layoutOfCode (code : BitVec 2) : Option Layout :=
  match code with
  | 0#2 => some .rgb
  | 1#2 => some .rgbW
  | 2#2 => some .rgbAlt
  | _ => none

/-- The 2 bits of `MODE` (R11). -/
def layoutCode : Layout → BitVec 2
  | .rgb => 0#2
  | .rgbW => 1#2
  | .rgbAlt => 2#2

/-- `stride` (R20): 4 for RGB_W, else 3. -/
def strideOf : Layout → Nat
  | .rgb => 3
  | .rgbW => 4
  | .rgbAlt => 3

/-- `stride` of the string the core holds (R20). -/
def State.stride (s : State) : Nat := strideOf s.mode

/-- `v & 0xFF` on a mathematical integer: `v mod 256`, for negative `v` too (R6). -/
def mask8 (v : Int) : Nat := (v % 256).toNat

/-- `pack(r, g, b)` for mathematical integers (R56): `(r8 << 16) + (g8 << 8) + b8`. -/
def packColour (r g b : Int) : Word :=
  BitVec.ofNat 32 (mask8 r * 65536 + mask8 g * 256 + mask8 b)

/-- `unpackRed(p)` (R57): `(packed >> 16) & 0xFF`. -/
def unpackRed (p : Word) : Byte := BitVec.ofNat 8 (p.toNat / 65536)

/-- `unpackGreen(p)` (R58): `(packed >> 8) & 0xFF`. -/
def unpackGreen (p : Word) : Byte := BitVec.ofNat 8 (p.toNat / 256)

/-- `unpackBlue(p)` (R59): `packed & 0xFF`. -/
def unpackBlue (p : Word) : Byte := BitVec.ofNat 8 p.toNat

/-- A byte as the 32-bit `data` of a response, zero-extended (R42). -/
def byteData (b : Byte) : Word := BitVec.ofNat 32 b.toNat

/-- The logical pixel a signed `index` operand names (R92): "the comparison is between the signed `index` and the
unsigned `LENGTH` as mathematical integers". None when it is out of range. -/
def State.logicalPixel (s : State) (index : Word) : Option Nat :=
  if 0 ≤ index.toInt ∧ index.toInt < (s.length.toNat : Int) then some index.toInt.toNat else none

/-- The byte offset of a physical pixel (R27, R91): `o = p * stride`. -/
def State.pixelOffset (s : State) (p : Nat) : Nat := p * s.stride

/-- `scale(ch)` (R90) at a given `BRIGHTNESS`. -/
def scaleChannel (brightness ch : Byte) : Byte :=
  if brightness = 255#8 then ch else BitVec.ofNat 8 (ch.toNat * brightness.toNat / 256)

/-- Where each channel of a pixel lies: bytes 0 to 2 from red, green, blue (R26). -/
def placeChannels {α : Type} (layout : Layout) (r g b : α) : List α :=
  match layout with
  | .rgb => [g, r, b]
  | .rgbW => [g, r, b]
  | .rgbAlt => [r, g, b]

/-- The packed colour of the bytes 0 to 2 of a pixel, by the inverse of `placeChannels` (R93). -/
def packStored (layout : Layout) (b0 b1 b2 : Byte) : Word :=
  match layout with
  | .rgb => packColour b1.toNat b0.toNat b2.toNat
  | .rgbW => packColour b1.toNat b0.toNat b2.toNat
  | .rgbAlt => packColour b0.toNat b1.toNat b2.toNat

/-- The bytes `WritePixel(p, rgb)` writes and where (R91): bytes 0 to 2 of the pixel, never byte 3. -/
def State.pixelWrites (s : State) (p : Nat) (rgb : Word) : List (Nat × Byte) :=
  let o := s.pixelOffset p
  [o, o + 1, o + 2].zip
    (placeChannels s.mode (scaleChannel s.brightness (unpackRed rgb)) (scaleChannel s.brightness (unpackGreen rgb))
      (scaleChannel s.brightness (unpackBlue rgb)))

/-- The bytes FILL writes (R94): `WritePixel(p, rgb)` for every `p` with `START <= p < START + LENGTH`. -/
def State.fillWrites (s : State) (rgb : Word) : List (Nat × Byte) :=
  (List.range s.length.toNat).flatMap fun i => s.pixelWrites (s.start.toNat + i) rgb

/-- The bytes CLEAR writes (R95): zero at every `a` with `START * stride <= a < LENGTH * stride`. -/
def State.clearWrites (s : State) : List (Nat × Byte) :=
  let lo := s.start.toNat * s.stride
  (List.range (s.length.toNat * s.stride - lo)).map fun t => (lo + t, 0#8)

/-- The moves of ROTATE (R96), each a target and its source address, for `LENGTH = n > 0`: the byte `c` of logical pixel
`j` comes from logical pixel `(j - k) mod n`, with `k = offset mod n`. -/
def State.rotateMoves (s : State) (offset : Int) : List (Nat × Nat) :=
  let n := s.length.toNat
  let k := offset % (n : Int)
  (List.range n).flatMap fun j => (List.range s.stride).map fun c =>
    ((s.start.toNat + j) * s.stride + c, (s.start.toNat + (((j : Int) - k) % (n : Int)).toNat) * s.stride + c)

end Sys2Proof.Machine
end

