-- ==== Sys2Proof/Machine/Flags.lean ====
section
/-! DEFINITION. The core has no status flags (spec/10_state.md R19). What stands in their place is the status of a
response (spec/30_encoding.md R42, R43): its code, its word, and the conditions of the errors (spec/60_exceptions.md
R120). -/

namespace Sys2Proof.Machine

/-- The 4-bit code of a status (R43). -/
def statusCode : Status → BitVec 4
  | .ok => 0#4
  | .illegal => 1#4
  | .alloc => 2#4
  | .range => 3#4

/-- `RSP36` (R42): status in bits 35:32, data in bits 31:0. -/
def responseWord (r : Response) : ResponseWord := statusCode r.status ++ r.data

/-- The bytes a string of `pixelCount` pixels needs, exactly (R80). -/
def bytesNeeded (layout : Layout) (pixelCount : Word) : Nat := pixelCount.toNat * strideOf layout

/-- ALLOC (R122): `pixelCount * stride > CAP`, the stride that of the requested layout, the product exact. -/
abbrev State.allocFails (s : State) (layout : Layout) (pixelCount : Word) : Prop :=
  s.cap < bytesNeeded layout pixelCount

/-- RANGE (R123): `(start + length) * stride > SIZE`, exact. -/
abbrev State.rangeFails (s : State) (start length : Word) : Prop :=
  s.size.toNat < (start.toNat + length.toNat) * s.stride

end Sys2Proof.Machine
end

