-- ==== Sys2Proof/Machine/Ops.lean ====
section
/-! DEFINITION. The named operations over the buffer memory and the registers: reading and writing bytes
(spec/00_scope.md R8), responding, emitting, raising an error (spec/60_exceptions.md R126), making a string
(spec/42_buffer_config.md R80), and taking the next command word (R4). -/

namespace Sys2Proof.Machine

/-- What an address the memory does not list reads as: no value. The spec gives a dead byte no content (R17, U6), and
every live byte is listed (log 4). -/
def Memory.unlisted : Option Byte := none

/-- The canonical form of a memory: addresses strictly rising, and no entry equal to what an unlisted address reads as. -/
abbrev Memory.wf (m : Memory) : Prop :=
  (m.map Prod.fst).Pairwise (· < ·) ∧ ∀ c ∈ m, some c.2 ≠ Memory.unlisted

/-- The byte at an address. -/
def Memory.read : Memory → Nat → Option Byte
  | [], _ => Memory.unlisted
  | (k, v) :: m, a => if k = a then some v else Memory.read m a

/-- Write a byte, keeping the canonical form. -/
def Memory.write : Memory → Nat → Byte → Memory
  | [], a, v => [(a, v)]
  | (k, w) :: m, a, v =>
    if a < k then (a, v) :: (k, w) :: m else if a = k then (a, v) :: m else (k, w) :: Memory.write m a v

/-- The memory in which exactly the addresses `0` to `n - 1` hold a value, zero: CREATE's buffer (R80). -/
def Memory.zeroed (n : Nat) : Memory := (List.range n).map fun a => (a, 0#8)

/-- What forbids a byte access at an address: R8 asks for `0 <= addr < SIZE`, R25 for `addr < CAP`. -/
def State.accessFault (s : State) (a : Nat) : Option Fault :=
  if s.cap ≤ a then some (.outsideBuffer a) else if s.size.toNat ≤ a then some (.deadByte a) else none

/-- `MemRead(addr, 1)` (R8). -/
def State.loadByte (s : State) (a : Nat) : Except Fault Byte :=
  match s.accessFault a with
  | some f => .error f
  | none =>
    match Memory.read s.buf a with
    | some v => .ok v
    | none => .error (.unwrittenByte a)

/-- `MemWrite(addr, 1, v)` (R8). -/
def State.storeByte (s : State) (a : Nat) (v : Byte) : Except Fault State :=
  match s.accessFault a with
  | some f => .error f
  | none => .ok { s with buf := Memory.write s.buf a v }

/-- Read bytes one after another. Reading changes nothing (R29). -/
def State.loadBytes (s : State) : List Nat → Except Fault (List Byte)
  | [] => .ok []
  | a :: as =>
    match s.loadByte a with
    | .error f => .error f
    | .ok v =>
      match State.loadBytes s as with
      | .error f => .error f
      | .ok vs => .ok (v :: vs)

/-- Write bytes one after another. -/
def State.storeBytes (s : State) : List (Nat × Byte) → Except Fault State
  | [] => .ok s
  | (a, v) :: ws =>
    match s.storeByte a v with
    | .error f => .error f
    | .ok s' => State.storeBytes s' ws

/-- `respond(status, data)` (R8, R42): the response of this step. -/
def State.respond (s : State) (status : Status) (data : Word) : State :=
  { s with responses := s.responses ++ [⟨status, data⟩] }

/-- `emit` (R8, R48): append an output event. -/
def State.emit (s : State) (e : Event) : State := { s with events := s.events ++ [e] }

/-- `raise <Error>` (R8, R126): the whole effect of an error is its response with data 0. There is nothing to return
from (R127). -/
def State.raise (s : State) (error : Status) : Host.Outcome State Fault Refusal := .next (s.respond error 0#32)

/-- Complete a step with `respond(OK, data)`. -/
def State.done (s : State) (data : Word) : Host.Outcome State Fault Refusal := .next (s.respond .ok data)

/-- Write bytes, then complete with `respond(OK, 0)`. -/
def State.storeThenDone (s : State) (ws : List (Nat × Byte)) : Host.Outcome State Fault Refusal :=
  match s.storeBytes ws with
  | .error f => .fault f
  | .ok s' => s'.done 0#32

/-- Read bytes and go on with their values. -/
def State.loadThen (s : State) (as : List Nat) (k : List Byte → Host.Outcome State Fault Refusal) :
    Host.Outcome State Fault Refusal :=
  match s.loadBytes as with
  | .error f => .fault f
  | .ok vs => k vs

/-- Read one byte and go on with its value. -/
def State.loadByteThen (s : State) (a : Nat) (k : Byte → Host.Outcome State Fault Refusal) :
    Host.Outcome State Fault Refusal :=
  match s.loadByte a with
  | .error f => .fault f
  | .ok v => k v

/-- What the 32-bit register `SIZE` holds when a byte count is written to it: the count itself when it fits, else the
free value (R12, R80; log 2). -/
def sizeRegister (bytes : Nat) : Word :=
  if bytes < 2 ^ 32 then BitVec.ofNat 32 bytes else Config.oversizeSize bytes

/-- The registers and the buffer of a new string (R80): `MODE`, `SIZE`, the window `0, pixelCount`, brightness 255, the
pin, and a buffer whose live bytes are 0. Bytes at or above the new `SIZE` are dead and keep no value (R17; log 4). -/
def State.makeString (s : State) (layout : Layout) (pixelCount : Word) (pin : Byte) : State :=
  { s with
    mode := layout
    size := sizeRegister (bytesNeeded layout pixelCount)
    start := 0#32
    length := pixelCount
    brightness := 255#8
    pin := pin
    buf := Memory.zeroed (sizeRegister (bytesNeeded layout pixelCount)).toNat }

/-- The host presents a command word that the core takes next (R4; log 7). -/
def State.present (s : State) (w : CommandWord) : State := { s with commands := w :: s.commands }

/-- Take the oldest command word presented (R4): the word, and the state with it taken. -/
def State.takeCommand (s : State) : Option (CommandWord × State) :=
  match s.commands with
  | [] => none
  | w :: ws => some (w, { s with commands := ws })

/-- What the core does with a word that spells no command (R45, R46, R121): it raises ILLEGAL, for either reason. -/
def rejectWord (e : DecodeError) (s : State) : Host.Outcome State Fault Refusal :=
  match e with
  | .reservedOpcode _ => s.raise .illegal
  | .reservedLayout => s.raise .illegal

end Sys2Proof.Machine
end

