-- ==== Sys2Proof/Machine/BufferConfig.lean ====
section
/-! DEFINITION. The buffer configuration commands: CREATE, SETRANGE, SETBR, SETBRP (spec/42_buffer_config.md). -/

namespace Sys2Proof.Machine

/-- CREATE (R80): the checks in the order of R125 (layout, then size), then the new string, `PinWrite(pin, 0)`, and
`respond(OK, 0)`. -/
def execCreate (pixelCount : Word) (mode : BitVec 2) (pin : Byte) (s : State) : Host.Outcome State Fault Refusal :=
  match layoutOfCode mode with
  | none => s.raise .illegal
  | some layout =>
    if s.allocFails layout pixelCount then s.raise .alloc
    else ((s.makeString layout pixelCount pin).emit (.pinWrite pin false)).done 0#32

/-- SETRANGE (R81): refuses a window that does not fit the live buffer, else sets `START` and `LENGTH`. -/
def execSetrange (start length : Word) (s : State) : Host.Outcome State Fault Refusal :=
  if s.rangeFails start length then s.raise .range
  else State.done { s with start := start, length := length } 0#32

/-- SETBR (R82): `BRIGHTNESS <- value & 0xFF`. -/
def execSetbr (value : Word) (s : State) : Host.Outcome State Fault Refusal :=
  State.done { s with brightness := BitVec.ofNat 8 value.toNat } 0#32

/-- SETBRP (R83): `BRIGHTNESS <- ((255 * percent + 50) div 100) & 0xFF`. -/
def execSetbrp (percent : Word) (s : State) : Host.Outcome State Fault Refusal :=
  State.done { s with brightness := BitVec.ofNat 8 ((255 * percent.toNat + 50) / 100) } 0#32

end Sys2Proof.Machine
end

