-- ==== Sys2Proof/Machine/BufferPixel.lean ====
section
/-! DEFINITION. The buffer pixel commands: SETPIX, GETPIX, FILL, CLEAR, ROTATE, SHOW (spec/43_buffer_pixel.md). None of
them can fail: each responds OK for every operand value. -/

namespace Sys2Proof.Machine

/-- SETPIX (R92): `WritePixel(index + START, rgb)` for an index in range, a silent no-op otherwise. -/
def execSetpix (index rgb : Word) (s : State) : Host.Outcome State Fault Refusal :=
  match s.logicalPixel index with
  | none => s.done 0#32
  | some i => s.storeThenDone (s.pixelWrites (i + s.start.toNat) rgb)

/-- GETPIX (R93): the stored bytes 0 to 2 of the pixel as a packed colour; 0 for an index out of range. -/
def execGetpix (index : Word) (s : State) : Host.Outcome State Fault Refusal :=
  match s.logicalPixel index with
  | none => s.done 0#32
  | some i =>
    let o := s.pixelOffset (i + s.start.toNat)
    s.loadByteThen o fun b0 => s.loadByteThen (o + 1) fun b1 => s.loadByteThen (o + 2) fun b2 =>
      s.done (packStored s.mode b0 b1 b2)

/-- FILL (R94): `WritePixel(p, rgb)` for every physical pixel of the window. -/
def execFill (rgb : Word) (s : State) : Host.Outcome State Fault Refusal :=
  s.storeThenDone (s.fillWrites rgb)

/-- CLEAR (R95): zeroes `[START * stride, LENGTH * stride)`, the source's formula taken literally (C2). -/
def execClear (s : State) : Host.Outcome State Fault Refusal :=
  s.storeThenDone s.clearWrites

/-- ROTATE (R96): every byte it moves is read before any is written (`old`); nothing when `LENGTH = 0`. -/
def execRotate (offset : Word) (s : State) : Host.Outcome State Fault Refusal :=
  let moves := s.rotateMoves offset.toInt
  s.loadThen (moves.map Prod.snd) fun old => s.storeThenDone ((moves.map Prod.fst).zip old)

/-- SHOW (R97): emits `Transmit(PIN, [buf[0], ..., buf[SIZE - 1]])`, writes nothing. -/
def execShow (s : State) : Host.Outcome State Fault Refusal :=
  s.loadThen (List.range s.size.toNat) fun bytes => (s.emit (.transmit s.pin bytes)).done 0#32

end Sys2Proof.Machine
end

