-- ==== Sys2Proof/Machine/Codec.lean ====
section
/-! DEFINITION. The packed-colour codec: PACK, UNPR, UNPG, UNPB (spec/40_codec.md). They read and write no state. -/

namespace Sys2Proof.Machine

/-- PACK (R56): each channel masked to 8 bits, then packed. -/
def execPack (red : Word) (green blue : Half) (s : State) : Host.Outcome State Fault Refusal :=
  s.done (packColour red.toNat green.toNat blue.toNat)

/-- UNPR (R57). -/
def execUnpr (packed : Word) (s : State) : Host.Outcome State Fault Refusal :=
  s.done (byteData (unpackRed packed))

/-- UNPG (R58). -/
def execUnpg (packed : Word) (s : State) : Host.Outcome State Fault Refusal :=
  s.done (byteData (unpackGreen packed))

/-- UNPB (R59). -/
def execUnpb (packed : Word) (s : State) : Host.Outcome State Fault Refusal :=
  s.done (byteData (unpackBlue packed))

end Sys2Proof.Machine
end

