-- ==== Sys2Proof/Machine/Hsl.lean ====
section
/-! DEFINITION. The HSL-to-RGB fixed-point converter (spec/41_hsl.md), its seven steps one for one (R66 to R72), on
mathematical integers. `a << 8` is `a * 256`; `a >> 8`, which is `a / 256` here, and `div` round toward minus infinity (R6). -/

namespace Sys2Proof.Machine

/-- Step 1 (R66): `h = hue mod 360`, the non-negative residue. -/
def hslHue (hue : Int) : Int := hue % 360

/-- Step 1 (R66): saturation and luminance are clamped to `[0, 99]` inside the converter (C3). -/
def hslClamp (v : Int) : Int := clamp 0 99 v

/-- Step 2 (R67): chroma `c = (((100 - |2*l - 100|) * s) << 8) div 10000`. -/
def hslChroma (s l : Int) : Int := ((100 - ((2 * l - 100).natAbs : Int)) * s * 256) / 10000

/-- Step 3 (R68): sector `h1 = h div 60`. -/
def hslSector (h : Int) : Int := h / 60

/-- Step 3 (R68): sub-position `h2 = ((h - 60*h1) * 256) div 60`. -/
def hslSub (h : Int) : Int := ((h - 60 * hslSector h) * 256) / 60

/-- Step 4 (R69): `temp = |((h1 mod 2) << 8) + h2 - 256|`. -/
def hslTemp (h1 h2 : Int) : Int := ((h1 % 2 * 256 + h2 - 256).natAbs : Int)

/-- Step 4 (R69): the second-largest component `x = (c * (256 - temp)) >> 8`. -/
def hslSecond (c temp : Int) : Int := (c * (256 - temp)) / 256

/-- Step 5 (R70): `(r', g', b')`, from `(c, x, 0)` permuted by the sector. "Since `0 <= h1 <= 5` always (rule R68), the
table is complete": the last arm is sector 5. -/
def hslPermute (h1 c x : Int) : Int × Int × Int :=
  if h1 = 0 then (c, x, 0)
  else if h1 = 1 then (x, c, 0)
  else if h1 = 2 then (0, c, x)
  else if h1 = 3 then (0, x, c)
  else if h1 = 4 then (x, 0, c)
  else (c, 0, x)

/-- Step 6 (R71): lightness offset `m = ((((l*2) << 8) div 100) - c) div 2`. -/
def hslOffset (l c : Int) : Int := (l * 2 * 256 / 100 - c) / 2

/-- The three channels after step 7 (R72), before packing, for a reduced hue and clamped saturation and luminance. -/
def hslChannels (h s l : Int) : Int × Int × Int :=
  let c := hslChroma s l
  let x := hslSecond c (hslTemp (hslSector h) (hslSub h))
  let rgb := hslPermute (hslSector h) c x
  let m := hslOffset l c
  (rgb.1 + m, rgb.2.1 + m, rgb.2.2 + m)

/-- `hsl(hue, sat, lum)` (R65): a packed colour, by the codec's own `pack` (R72). -/
def hslColour (hue sat lum : Int) : Word :=
  let rgb := hslChannels (hslHue hue) (hslClamp sat) (hslClamp lum)
  packColour rgb.1 rgb.2.1 rgb.2.2

/-- HSL (R65): every operand signed; no state is read or written. -/
def execHsl (hue : Word) (sat lum : Half) (s : State) : Host.Outcome State Fault Refusal :=
  s.done (hslColour hue.toInt sat.toInt lum.toInt)

end Sys2Proof.Machine
end

