-- ==== Sys2Proof/Machine/Dispatch.lean ====
section
/-! DEFINITION. One arm per command of spec/30_encoding.md R44, each a call of its meaning. -/

namespace Sys2Proof.Machine

/-- The meaning of a command on a state. -/
def exec (i : Instr) (s : State) : Host.Outcome State Fault Refusal :=
  match i with
  | .pack red green blue => Sys2Proof.Machine.execPack red green blue s
  | .unpr packed => Sys2Proof.Machine.execUnpr packed s
  | .unpg packed => Sys2Proof.Machine.execUnpg packed s
  | .unpb packed => Sys2Proof.Machine.execUnpb packed s
  | .hsl hue sat lum => Sys2Proof.Machine.execHsl hue sat lum s
  | .create pixelCount mode pin => Sys2Proof.Machine.execCreate pixelCount mode pin s
  | .setrange start length => Sys2Proof.Machine.execSetrange start length s
  | .setbr value => Sys2Proof.Machine.execSetbr value s
  | .setbrp percent => Sys2Proof.Machine.execSetbrp percent s
  | .setpix index rgb => Sys2Proof.Machine.execSetpix index rgb s
  | .getpix index => Sys2Proof.Machine.execGetpix index s
  | .fill rgb => Sys2Proof.Machine.execFill rgb s
  | .clear => Sys2Proof.Machine.execClear s
  | .rotate offset => Sys2Proof.Machine.execRotate offset s
  | .showBuf => Sys2Proof.Machine.execShow s

end Sys2Proof.Machine
end

