-- ==== Sys2Proof/Machine/Step.lean ====
section
/-! DEFINITION. One step (spec/00_scope.md R4): the core takes the oldest command word presented, decodes it and executes
it; with no word presented it holds its state. -/

namespace Sys2Proof.Machine

/-- The step function. With no command presented "the block simply holds its state" (R130; log 6). A word that spells no
command raises ILLEGAL (R45, R46). -/
def step (s : State) : Host.Outcome State Fault Refusal :=
  match s.takeCommand with
  | none => .next s
  | some (w, s') =>
    match decode w with
    | .ok i => exec i s'
    | .error e => rejectWord e s'

/-- `s` with the given instruction presented, so that the next step takes and executes it (log 7). Its bits are numbered
as spec/opcode_table.json numbers them. -/
def State.withFetchWord (s : State) (nbits w : Nat) : State := s.present (tableWord nbits w)

end Sys2Proof.Machine
end

