-- ==== Sys2Proof/Machine/HostSequences.lean ====
section
/-! DEFINITION. The assembler (spec/30_encoding.md R49) and the host sequences (spec/44_host_sequences.md): the String
Controller and the Rainbow Sequencer as series of commands over the machine's own step. They add nothing to the machine
(R105). -/

namespace Sys2Proof.Machine

/-- `PACK r, g, b` (R49): `r mod 2^32`, `g mod 2^16`, `b mod 2^16`. -/
def asmPack (r g b : Int) : Instr := .pack (BitVec.ofInt 32 r) (BitVec.ofInt 16 g) (BitVec.ofInt 16 b)

/-- `UNPR p` (R49). -/
def asmUnpr (p : Int) : Instr := .unpr (BitVec.ofInt 32 p)

/-- `UNPG p` (R49). -/
def asmUnpg (p : Int) : Instr := .unpg (BitVec.ofInt 32 p)

/-- `UNPB p` (R49). -/
def asmUnpb (p : Int) : Instr := .unpb (BitVec.ofInt 32 p)

/-- `HSL h, s, l` (R49): two's complement fields. -/
def asmHsl (h s l : Int) : Instr := .hsl (BitVec.ofInt 32 h) (BitVec.ofInt 16 s) (BitVec.ofInt 16 l)

/-- `CREATE n, mode, pin` (R49): `n` is below `2^32`. -/
def asmCreate (n : Nat) (mode : Layout) (pin : Byte) : Instr := .create (BitVec.ofNat 32 n) (layoutCode mode) pin

/-- `SETRANGE start, length` (R49): both below `2^32`. -/
def asmSetrange (start length : Nat) : Instr := .setrange (BitVec.ofNat 32 start) (BitVec.ofNat 32 length)

/-- `SETBR v` (R49): `v mod 2^32`. -/
def asmSetbr (v : Int) : Instr := .setbr (BitVec.ofInt 32 v)

/-- `SETBRP p` (R49): `p` is below `2^32`. -/
def asmSetbrp (p : Nat) : Instr := .setbrp (BitVec.ofNat 32 p)

/-- `SETPIX i, rgb` (R49): both `mod 2^32`. -/
def asmSetpix (i rgb : Int) : Instr := .setpix (BitVec.ofInt 32 i) (BitVec.ofInt 32 rgb)

/-- `GETPIX i` (R49): `i mod 2^32`. -/
def asmGetpix (i : Int) : Instr := .getpix (BitVec.ofInt 32 i)

/-- `FILL rgb` (R49): `rgb mod 2^32`. -/
def asmFill (rgb : Int) : Instr := .fill (BitVec.ofInt 32 rgb)

/-- `ROTATE k` (R49): `k mod 2^32`; "`ROTATE` alone means `ROTATE 1`". -/
def asmRotate (k : Int := 1) : Instr := .rotate (BitVec.ofInt 32 k)

/-- One entry of a host sequence. -/
inductive HostEntry where
  /-- Present one command. -/
  | issue (i : Instr)
  /-- `HSL hue, sat, lum -> c ; SETPIX index, c` (R115, R116): the response's data is the next command's operand. -/
  | colourPixel (hue sat lum index : Int)
  deriving DecidableEq, Repr

/-- Go on from a next state; stop where the machine stops. -/
def andThen (o : Host.Outcome State Fault Refusal) (k : State → Host.Outcome State Fault Refusal) :
    Host.Outcome State Fault Refusal :=
  match o with
  | .next s => k s
  | .fault f => .fault f
  | .refused r => .refused r

/-- The host presents a command and the core takes it: one step (R4). -/
def issue (i : Instr) (s : State) : Host.Outcome State Fault Refusal := step (s.present (encode i))

/-- The data of the last response, which the host uses as a later operand (R49, `-> name`). -/
def State.lastData (s : State) : Word :=
  match s.responses.getLast? with
  | some r => r.data
  | none => 0#32

/-- Run one entry of a host sequence. -/
def runEntry (e : HostEntry) (s : State) : Host.Outcome State Fault Refusal :=
  match e with
  | .issue i => issue i s
  | .colourPixel hue sat lum index =>
    andThen (issue (asmHsl hue sat lum) s) fun s1 => issue (asmSetpix index s1.lastData.toNat) s1

/-- Run a host sequence from a state. -/
def runHost : List HostEntry → State → Host.Outcome State Fault Refusal
  | [], s => .next s
  | e :: es, s => andThen (runEntry e s) (runHost es)

/-- `create(pixelCount)` (R106). -/
def hostCreate (c : Config.HostDefaults) (pixelCount : Nat) : List HostEntry :=
  [.issue (asmCreate pixelCount c.mode c.pin)]

/-- `showColor(rgb)` (R107). -/
def hostShowColor (rgb : Int) : List HostEntry := [.issue (asmFill rgb), .issue .showBuf]

/-- `setZipLedColor(index, rgb)` (R108): does not transmit. -/
def hostSetZipLedColor (index rgb : Int) : List HostEntry := [.issue (asmSetpix index rgb)]

/-- `show()` (R109). -/
def hostShow : List HostEntry := [.issue .showBuf]

/-- The controller's `clear()` (R110). -/
def hostClear : List HostEntry := [.issue .clear, .issue .showBuf]

/-- The controller's `rotate(offset=1)` (R111). -/
def hostRotate (offset : Int := 1) : List HostEntry := [.issue (asmRotate offset), .issue .showBuf]

/-- `setBrightness(value)` (R112). -/
def hostSetBrightness (value : Int) : List HostEntry := [.issue (asmSetbr value)]

/-- `setBrightnessPercent(percent)` (R112). -/
def hostSetBrightnessPercent (percent : Nat) : List HostEntry := [.issue (asmSetbrp percent)]

/-- The parameters of a hue ramp (R113, R114). -/
structure Ramp where
  startHue : Int
  endHue : Int
  sat1 : Int
  sat2 : Int
  lum1 : Int
  lum2 : Int
  deriving DecidableEq, Repr

/-- The fixed parameters of `showRainbow()` (R113). -/
def rainbowRamp : Ramp := ⟨1, 360, 100, 100, 50, 50⟩

/-- `hStep = floor(hDistCW*100/steps)` with `hDistCW = ((endHue+360) - startHue) mod 360` (R114). -/
def Ramp.hueStep (r : Ramp) (steps : Int) : Int := ((r.endHue + 360 - r.startHue) % 360 * 100) / steps

/-- `sStep = floor((s2-s1)/steps)` (R114). -/
def Ramp.satStep (r : Ramp) (steps : Int) : Int := (r.sat2 - r.sat1) / steps

/-- `lStep = floor((l2-l1)/steps)` (R114). -/
def Ramp.lumStep (r : Ramp) (steps : Int) : Int := (r.lum2 - r.lum1) / steps

/-- The one pixel of a ramp of one step (R115; D24: the hue step is added as it stands). -/
def Ramp.onlyPixel (r : Ramp) : HostEntry :=
  .colourPixel (r.startHue + r.hueStep 1) (r.sat1 + r.satStep 1) (r.lum1 + r.lumStep 1) 0

/-- Interior pixel `i` (R116). -/
def Ramp.interiorPixel (r : Ramp) (steps i : Int) : HostEntry :=
  .colourPixel ((r.startHue * 100 + i * r.hueStep steps) / 100 + 360) ((r.sat1 * 100 + i * r.satStep steps) / 100)
    ((r.lum1 * 100 + i * r.lumStep steps) / 100) i

/-- The pixels of a ramp of two or more steps, in ascending order (R116). -/
def Ramp.pixels (r : Ramp) (steps : Nat) : List HostEntry :=
  .colourPixel r.startHue r.sat1 r.lum1 0
    :: ((List.range (steps - 2)).map fun (j : Nat) => r.interiorPixel steps ((j : Int) + 1))
    ++ [.colourPixel r.endHue r.sat2 r.lum2 ((steps : Int) - 1)]

/-- `showRainbow()` on a string of the given `length` (R113, R115 to R117): empty when `length <= 0`, else the pixels and
one SHOW. -/
def hostShowRainbow (length : Int) : List HostEntry :=
  if length ≤ 0 then []
  else if length = 1 then [rainbowRamp.onlyPixel, .issue .showBuf]
  else rainbowRamp.pixels length.toNat ++ [.issue .showBuf]

end Sys2Proof.Machine
end

