-- ==== Sys2Proof/Safety.lean ====
section
/-! DEFINITION. What a safe run is, in the terms the statements use: the invariants of spec/10_state.md R18, the white
bytes of D23, the string a state holds, and a step that does not stop. -/

namespace Sys2Proof.Machine

/-- The byte an address holds, if it holds a value: the model's read of one byte. -/
def State.byteAt (s : State) (a : Nat) : Option Byte := Memory.read s.buf a

/-- The invariants R18, for every `CAP`, with what they rest on in this model: the buffer holds a value at exactly the
live addresses (R17, R32; log 4). -/
structure State.Inv (s : State) : Prop where
  /-- (I1) `SIZE <= CAP`. -/
  sizeFits : s.size.toNat ≤ s.cap
  /-- (I2) `SIZE mod stride = 0`. -/
  sizeMultiple : s.size.toNat % s.stride = 0
  /-- (I3) `(START + LENGTH) * stride <= SIZE`, exact. -/
  windowFits : (s.start.toNat + s.length.toNat) * s.stride ≤ s.size.toNat
  /-- (I4) `MODE` is 0, 1 or 2. -/
  modeLegal : layoutCode s.mode ≠ 3#2
  /-- Exactly the live addresses `0` to `SIZE - 1` hold a value, in rising order. -/
  liveBytes : s.buf.map Prod.fst = List.range s.size.toNat

/-- The white bytes of an RGB_W string are 0 (D23, R91: "so it is always 0"). -/
def State.WhiteZero (s : State) : Prop :=
  s.mode = .rgbW → ∀ p v, s.byteAt (4 * p + 3) = some v → v = 0#8

/-- Two states hold the same string: every register, the buffer and the capacity agree (R10). What may differ is the
host's queue of commands and the responses and events given. -/
structure State.SameString (s t : State) : Prop where
  cap : t.cap = s.cap
  mode : t.mode = s.mode
  size : t.size = s.size
  start : t.start = s.start
  length : t.length = s.length
  brightness : t.brightness = s.brightness
  pin : t.pin = s.pin
  buf : t.buf = s.buf

/-- An address inside the logical window (R30). -/
def State.inWindow (s : State) (a : Nat) : Prop :=
  s.start.toNat * s.stride ≤ a ∧ a < (s.start.toNat + s.length.toNat) * s.stride

/-- A step from the state does not stop. -/
def State.Safe (s : State) : Prop := ∃ t, step s = .next t

end Sys2Proof.Machine
end

