-- ==== Sys2Proof/Certificates/Slice0/Obligations.lean ====
section
/-! DEFINITION. The statements for the provers, from the numbered rules of spec/. "D<n>" in a docstring names a decision of
spec/92_eei_decisions.md that the statement rests on: a choice the spec marks as its own. -/

open Sys2Proof Sys2Proof.Machine

/-! ## Encoding -/

/-- Words written out from R40, R41 and R44 (the spec's own examples), one for each command, decode to the command they
stand for. Rests on D2, D3, D6 (the encodings are the spec's own choice). -/
def Obligations.WrittenWordsDecodeAsTheSpecSays : Prop :=
  decode 0x010000001200340056#72 = .ok (.pack 0x12#32 0x34#16 0x56#16) ∧
  decode 0x0200000000FF123456#72 = .ok (.unpr 0xFF123456#32) ∧
  decode 0x030000000000123456#72 = .ok (.unpg 0x123456#32) ∧
  decode 0x040000000000123456#72 = .ok (.unpb 0x123456#32) ∧
  decode 0x08FFFFFFFF00640032#72 = .ok (.hsl (BitVec.ofInt 32 (-1)) 100#16 50#16) ∧
  decode 0x10000000050000FF02#72 = .ok (.create 5#32 2#2 255#8) ∧
  decode 0x110000000100000003#72 = .ok (.setrange 1#32 3#32) ∧
  decode 0x120000000000000080#72 = .ok (.setbr 128#32) ∧
  decode 0x130000000000000032#72 = .ok (.setbrp 50#32) ∧
  decode 0x14000000000000FF55#72 = .ok (.setpix 0#32 0x00FF55#32) ∧
  decode 0x15FFFFFFFF00000000#72 = .ok (.getpix (BitVec.ofInt 32 (-1))) ∧
  decode 0x160000000000FF8001#72 = .ok (.fill 0xFF8001#32) ∧
  decode 0x170000000000000000#72 = .ok .clear ∧
  decode 0x180000000100000000#72 = .ok (.rotate 1#32) ∧
  decode 0x190000000000000000#72 = .ok .showBuf ∧
  decode 0x050000000000123456#72 = .error (.reservedOpcode 0x05#8) ∧
  decode 0x100000000200000003#72 = .error .reservedLayout

/-- Decoding the encoding of any well-formed command gives the command back, every operand at every value (R40, R41,
R44, R49). -/
def Obligations.DecodeOfEncodeIsTheCommand : Prop :=
  ∀ i : Instr, i.wf = true → decode (encode i) = .ok i

/-- The other direction: a decoded command is well formed, its encoding is the word with every bit that R41 names for
no operand set to zero, and every word that agrees on the named bits decodes to the same command (R41, R47). The bits
`d[31:24]` of UNPR, UNPG, UNPB, SETPIX and FILL, which R47 also lists as ignored, are kept here as bits of the operand `d`:
the model's choice (log 10); that they have no effect is IgnoredBitsHaveNoEffect. -/
def Obligations.DecodeReadsExactlyTheOperandBits : Prop :=
  ∀ (w : CommandWord) (i : Instr), decode w = .ok i →
    i.wf = true ∧ encode i = w &&& i.significantBits ∧
    ∀ w' : CommandWord, w' &&& i.significantBits = w &&& i.significantBits → decode w' = .ok i

/-- The bits R47 lists as ignored have no effect on a step: for every command, two words that agree on the opcode and on
the bits of `a` and `d` that R47 does not list for it make the same step. The table gives the bits not listed. Rests on
D5. -/
def Obligations.IgnoredBitsHaveNoEffect : Prop :=
  ∀ row ∈ ([(0x01#8, 0xFFFFFFFF#32, 0xFFFFFFFF#32), (0x02#8, 0#32, 0x00FFFFFF#32), (0x03#8, 0#32, 0x00FFFFFF#32),
      (0x04#8, 0#32, 0x00FFFFFF#32), (0x08#8, 0xFFFFFFFF#32, 0xFFFFFFFF#32), (0x10#8, 0xFFFFFFFF#32, 0x0000FF03#32),
      (0x11#8, 0xFFFFFFFF#32, 0xFFFFFFFF#32), (0x12#8, 0#32, 0xFFFFFFFF#32), (0x13#8, 0#32, 0xFFFFFFFF#32),
      (0x14#8, 0xFFFFFFFF#32, 0x00FFFFFF#32), (0x15#8, 0xFFFFFFFF#32, 0#32), (0x16#8, 0#32, 0x00FFFFFF#32),
      (0x17#8, 0#32, 0#32), (0x18#8, 0xFFFFFFFF#32, 0#32), (0x19#8, 0#32, 0#32)] : List (Byte × Word × Word)),
    ∀ (s : State) (a d a' d' : Word), a &&& row.2.1 = a' &&& row.2.1 → d &&& row.2.2 = d' &&& row.2.2 →
      step (s.present (commandWord row.1 a d)) = step (s.present (commandWord row.1 a' d'))

/-- The decoder is total and follows the opcode map: a word spells a command exactly when its opcode selects a row of R44
and it is not CREATE with `d[1:0] = 3`; a word with one of the 241 reserved opcodes changes nothing, emits nothing and
responds (ILLEGAL, 0) (R44, R45). Rests on D3, D5. -/
def Obligations.ReservedOpcodesAreIllegal : Prop :=
  (∀ w : CommandWord, (∃ i, decode w = .ok i) ↔
    (∃ row ∈ opcodeTable, w &&& opcodeMask = row.2) ∧ ¬(w.extractLsb' 64 8 = 0x10#8 ∧ w.extractLsb' 0 2 = 3#2)) ∧
  ((List.range 256).filter fun op => opcodeTable.all fun row => row.2.extractLsb' 64 8 != BitVec.ofNat 8 op).length = 241 ∧
  ∀ (s : State) (w : CommandWord) (ws : List CommandWord), s.commands = w :: ws →
    (∀ row ∈ opcodeTable, w &&& opcodeMask ≠ row.2) →
    step s = .next { s with commands := ws, responses := s.responses ++ [⟨.illegal, 0#32⟩] }

/-- CREATE with the reserved layout 3 changes nothing, emits nothing and responds (ILLEGAL, 0), whatever the size asked
for (the layout is checked before the size) and whatever the other bits (R46, R125). Rests on D5, D12, D19. -/
def Obligations.ReservedLayoutIsIllegalBeforeSize : Prop :=
  (∀ (s : State) (a d : Word) (ws : List CommandWord), s.commands = commandWord 0x10#8 a d :: ws →
    d.extractLsb' 0 2 = 3#2 →
    step s = .next { s with commands := ws, responses := s.responses ++ [⟨.illegal, 0#32⟩] }) ∧
  ∀ (n : Word) (pin : Byte) (s : State),
    exec (.create n 3#2 pin) s = .next { s with responses := s.responses ++ [⟨.illegal, 0#32⟩] }

/-! ## The step -/

/-- A step takes the oldest command word and executes the command it decodes to (R4); with no word presented it holds
the state (R130; the model's reading, log 6). Presenting the encoding of a well-formed command executes that command. -/
def Obligations.StepRunsTheDecodedCommand : Prop :=
  (∀ (s : State) (w : CommandWord) (ws : List CommandWord) (i : Instr), s.commands = w :: ws → decode w = .ok i →
    step s = exec i { s with commands := ws }) ∧
  (∀ s : State, s.commands = [] → step s = .next s) ∧
  ∀ (s : State) (i : Instr), i.wf = true → step (s.present (encode i)) = exec i s

/-- Every command produces exactly one response, and at most one output event; a failed one carries data 0 and emits none
(R42, R48, R126). The responses and events given before stay. Rests on D1, D4. -/
def Obligations.EveryCommandRespondsExactlyOnce : Prop :=
  ∀ (s t : State) (w : CommandWord) (ws : List CommandWord), s.commands = w :: ws → step s = .next t →
    t.commands = ws ∧
    ∃ (r : Response) (es : List Event), t.responses = s.responses ++ [r] ∧ t.events = s.events ++ es ∧
      es.length ≤ 1 ∧ (r.status ≠ .ok → r.data = 0#32 ∧ es = [])

/-- The response word: status in bits 35:32, data in bits 31:0; the codes are 0 OK, 1 ILLEGAL, 2 ALLOC, 3 RANGE, and 4 to
15 are never produced (R42, R43). Rests on D4. -/
def Obligations.ResponseWordHoldsStatusAndData : Prop :=
  (∀ r : Response, (responseWord r).extractLsb' 32 4 = statusCode r.status ∧ (responseWord r).extractLsb' 0 32 = r.data) ∧
  statusCode .ok = 0#4 ∧ statusCode .illegal = 1#4 ∧ statusCode .alloc = 2#4 ∧ statusCode .range = 3#4 ∧
  ∀ r : Response, ((responseWord r).extractLsb' 32 4).toNat < 4

/-- The upper bits of every result are 0: a packed colour has `data[31:24] = 0`, a byte `data[31:8] = 0`, and every other
command answers data 0 (R42). Rests on D4, D25. -/
def Obligations.ResultsAreZeroExtended : Prop :=
  ∀ (i : Instr) (s t : State), exec i s = .next t → ∃ r : Response, t.responses = s.responses ++ [r] ∧
    match i with
    | .pack _ _ _ => r.data.extractLsb' 24 8 = 0#8
    | .hsl _ _ _ => r.data.extractLsb' 24 8 = 0#8
    | .getpix _ => r.data.extractLsb' 24 8 = 0#8
    | .unpr _ => r.data.extractLsb' 8 24 = 0#24
    | .unpg _ => r.data.extractLsb' 8 24 = 0#24
    | .unpb _ => r.data.extractLsb' 8 24 = 0#24
    | _ => r.data = 0#32

/-- Which error each command can raise, and exactly when (R120 to R123, R125): ILLEGAL by CREATE with layout 3, ALLOC by
CREATE with a legal layout whose exact byte count exceeds `CAP`, RANGE by SETRANGE whose exact window exceeds `SIZE`;
every other response of a command is OK. Rests on D4, D5, D11, D14. -/
def Obligations.ErrorsAreRaisedExactlyWhenTheirConditionHolds : Prop :=
  ∀ (i : Instr) (s t : State), exec i s = .next t → ∃ r : Response, t.responses = s.responses ++ [r] ∧
    (r.status = .illegal ↔ ∃ n pin, i = .create n 3#2 pin) ∧
    (r.status = .alloc ↔ ∃ n mode pin, i = .create n mode pin ∧ mode ≠ 3#2 ∧
      s.cap < n.toNat * (if mode = 1#2 then 4 else 3)) ∧
    (r.status = .range ↔ ∃ start length, i = .setrange start length ∧
      s.size.toNat < (start.toNat + length.toNat) * (if s.mode = .rgbW then 4 else 3))

/-- A failed command leaves no trace but its response: the state after it equals the state before it, and no event is
emitted (R126, R127). Rests on D19. -/
def Obligations.FailedCommandsLeaveNoTrace : Prop :=
  ∀ (s t : State) (w : CommandWord) (ws : List CommandWord) (r : Response), s.commands = w :: ws → step s = .next t →
    t.responses = s.responses ++ [r] → r.status ≠ .ok →
    r.data = 0#32 ∧ t = { s with commands := ws, responses := s.responses ++ [r] }

/-! ## The codec -/

/-- PACK (R56): opcode 0x01; the response is (OK, `{0x00, a[7:0], d[23:16], d[7:0]}`) and nothing else changes. The same
function on mathematical integers takes each channel modulo 256 into its own lane. -/
def Obligations.PackMasksEachChannel : Prop :=
  (∀ a d : Word, decode (commandWord 0x01#8 a d) = .ok (.pack a (d.extractLsb' 16 16) (d.extractLsb' 0 16))) ∧
  (∀ (red : Word) (green blue : Half) (s : State), exec (.pack red green blue) s =
    .next { s with responses := s.responses ++
      [⟨.ok, 0x00#8 ++ red.extractLsb' 0 8 ++ green.extractLsb' 0 8 ++ blue.extractLsb' 0 8⟩] }) ∧
  ∀ r g b : Int, packColour r g b = 0x00#8 ++ BitVec.ofInt 8 r ++ BitVec.ofInt 8 g ++ BitVec.ofInt 8 b

/-- UNPR, UNPG, UNPB (R57, R58, R59): opcodes 0x02, 0x03, 0x04; each responds (OK, the byte `d[23:16]`, `d[15:8]`, `d[7:0]`
zero-extended), whatever `a` and `d[31:24]`, and changes nothing else. -/
def Obligations.UnpackExtractsOneByte : Prop :=
  (∀ a d : Word, decode (commandWord 0x02#8 a d) = .ok (.unpr d) ∧ decode (commandWord 0x03#8 a d) = .ok (.unpg d) ∧
    decode (commandWord 0x04#8 a d) = .ok (.unpb d)) ∧
  ∀ (packed : Word) (s : State),
    exec (.unpr packed) s = .next { s with responses := s.responses ++ [⟨.ok, 0#24 ++ packed.extractLsb' 16 8⟩] } ∧
    exec (.unpg packed) s = .next { s with responses := s.responses ++ [⟨.ok, 0#24 ++ packed.extractLsb' 8 8⟩] } ∧
    exec (.unpb packed) s = .next { s with responses := s.responses ++ [⟨.ok, 0#24 ++ packed.extractLsb' 0 8⟩] }

/-- The round trips of the codec (R60): unpacking a packed triple gives each channel modulo 256, so a byte gives itself
back; packing the three unpacked bytes of any 32-bit value gives its low 24 bits. -/
def Obligations.CodecRoundTrip : Prop :=
  (∀ r g b : Int, ((unpackRed (packColour r g b)).toNat : Int) = r % 256 ∧
    ((unpackGreen (packColour r g b)).toNat : Int) = g % 256 ∧ ((unpackBlue (packColour r g b)).toNat : Int) = b % 256) ∧
  (∀ r g b : Byte, unpackRed (packColour r.toNat g.toNat b.toNat) = r ∧
    unpackGreen (packColour r.toNat g.toNat b.toNat) = g ∧ unpackBlue (packColour r.toNat g.toNat b.toNat) = b) ∧
  (∀ p : Word, p.toNat < 2 ^ 24 →
    packColour (unpackRed p).toNat (unpackGreen p).toNat (unpackBlue p).toNat = p) ∧
  ∀ p : Word, packColour (unpackRed p).toNat (unpackGreen p).toNat (unpackBlue p).toNat = p &&& 0xFFFFFF#32

/-! ## The converter -/

/-- HSL (R65 to R72): opcode 0x08, signed operands; every HSL word responds OK with the colour of the seven steps, and
changes nothing else. The second-largest component is written as R69 says it for even and odd sectors. Rests on D7 (the
block reduces the hue), D9 (shift before divide), C3 (the clamp is inside). -/
def Obligations.HslRespondsWithTheConvertedColour : Prop :=
  (∀ a d : Word, decode (commandWord 0x08#8 a d) = .ok (.hsl a (d.extractLsb' 16 16) (d.extractLsb' 0 16))) ∧
  ∀ (hue : Word) (sat lum : Half) (s : State) (h sv lv c h2 x m : Int),
    h = hue.toInt % 360 → sv = max 0 (min 99 sat.toInt) → lv = max 0 (min 99 lum.toInt) →
    c = (if lv ≤ 50 then 2 * lv else 200 - 2 * lv) * sv * 256 / 10000 →
    h2 = h % 60 * 256 / 60 →
    x = (if h / 60 % 2 = 0 then c * h2 / 256 else c * (256 - h2) / 256) →
    m = (512 * lv / 100 - c) / 2 →
    exec (.hsl hue sat lum) s = .next { s with responses := s.responses ++ [⟨.ok,
      if h < 60 then packColour (c + m) (x + m) m
      else if h < 120 then packColour (x + m) (c + m) m
      else if h < 180 then packColour m (c + m) (x + m)
      else if h < 240 then packColour m (x + m) (c + m)
      else if h < 300 then packColour (x + m) m (c + m)
      else packColour (c + m) m (x + m)⟩] }

/-- Every intermediate of the converter stays within the bounds of R73's table, over all reduced hues and clamped
saturations and luminances, one clause for each row of the table. R73 is derived by the spec from R66 to R72. -/
def Obligations.HslIntermediatesStayInBounds : Prop :=
  ∀ h sv lv : Int, 0 ≤ h → h ≤ 359 → 0 ≤ sv → sv ≤ 99 → 0 ≤ lv → lv ≤ 99 →
    (0 ≤ hslChroma sv lv ∧ hslChroma sv lv ≤ 253) ∧
    (0 ≤ hslSector h ∧ hslSector h ≤ 5) ∧
    (0 ≤ hslSub h ∧ hslSub h ≤ 251) ∧
    (0 ≤ hslTemp (hslSector h) (hslSub h) ∧ hslTemp (hslSector h) (hslSub h) ≤ 256) ∧
    (0 ≤ hslSecond (hslChroma sv lv) (hslTemp (hslSector h) (hslSub h)) ∧
      hslSecond (hslChroma sv lv) (hslTemp (hslSector h) (hslSub h)) ≤ hslChroma sv lv) ∧
    (0 ≤ lv * 2 * 256 / 100 ∧ lv * 2 * 256 / 100 ≤ 506) ∧
    (0 ≤ lv * 2 * 256 / 100 - hslChroma sv lv ∧ lv * 2 * 256 / 100 - hslChroma sv lv ≤ 506) ∧
    (0 ≤ hslOffset lv (hslChroma sv lv) ∧ hslOffset lv (hslChroma sv lv) ≤ 253) ∧
    (0 ≤ (hslChannels h sv lv).1 ∧ (hslChannels h sv lv).1 ≤ 255) ∧
    (0 ≤ (hslChannels h sv lv).2.1 ∧ (hslChannels h sv lv).2.1 ≤ 255) ∧
    (0 ≤ (hslChannels h sv lv).2.2 ∧ (hslChannels h sv lv).2.2 ≤ 255)

/-- Pure white is never produced, and a channel reaches 255 only at a clamped luminance of 67 or more (R75). -/
def Obligations.HslNeverReachesWhite : Prop :=
  ∀ hue sat lum : Int, hslColour hue sat lum ≠ 0xFFFFFF#32 ∧
    ((unpackRed (hslColour hue sat lum) = 255#8 ∨ unpackGreen (hslColour hue sat lum) = 255#8 ∨
      unpackBlue (hslColour hue sat lum) = 255#8) → 67 ≤ lum)

/-- The result depends on the operands alone, on the hue only through `hue mod 360`, on saturation and luminance only
through their clamps to `[0, 99]`, and on no state (R74, derived by the spec from R66). -/
def Obligations.HslDependsOnReducedOperandsOnly : Prop :=
  ∀ (hue hue' : Word) (sat sat' lum lum' : Half), hue.toInt % 360 = hue'.toInt % 360 →
    max 0 (min 99 sat.toInt) = max 0 (min 99 sat'.toInt) → max 0 (min 99 lum.toInt) = max 0 (min 99 lum'.toInt) →
    ∃ data : Word, ∀ s : State,
      exec (.hsl hue sat lum) s = .next { s with responses := s.responses ++ [⟨.ok, data⟩] } ∧
      exec (.hsl hue' sat' lum') s = .next { s with responses := s.responses ++ [⟨.ok, data⟩] }

/-- The named values of R75, among them the primaries as the algorithm gives them (C1). -/
def Obligations.HslNamedValues : Prop :=
  ∀ row ∈ ([(0, 100, 50, 0xFE0101#32), (120, 100, 50, 0x01FE01#32), (240, 100, 50, 0x0101FE#32),
      (360, 100, 50, 0xFE0101#32), (-1, 100, 50, 0xFE0105#32), (60, 100, 50, 0xFEFE01#32), (0, 0, 50, 0x808080#32),
      (0, 0, 0, 0x000000#32), (0, 0, 99, 0xFDFDFD#32), (0, 0, 100, 0xFDFDFD#32), (0, 99, 99, 0xFFFAFA#32),
      (0, -5, 50, 0x808080#32), (0, 50, -5, 0x000000#32), (1, 100, 50, 0xFE0401#32), (200, 75, 60, 0x4DB3E6#32)] :
      List (Int × Int × Int × Word)),
    hslColour row.1 row.2.1 row.2.2.1 = row.2.2.2

/-! ## Buffer configuration -/

/-- CREATE (R80) with a legal layout and a byte count that fits `CAP`: it completes, makes the string (layout, window `0,
pixelCount`, brightness 255, pin, every live byte 0), emits one `PinWrite(pin, 0)`, responds (OK, 0), and changes nothing
else. `SIZE` is the exact byte count whenever that fits its 32 bits (log 2); a byte that is not live holds no value (log 4).
Rests on D11 (layout and pin are operands, zero-fill), D12. -/
def Obligations.CreateMakesAString : Prop :=
  (∀ a d : Word, d.extractLsb' 0 2 ≠ 3#2 →
    decode (commandWord 0x10#8 a d) = .ok (.create a (d.extractLsb' 0 2) (d.extractLsb' 8 8))) ∧
  ∀ (n : Word) (mode : BitVec 2) (pin : Byte) (s : State), mode ≠ 3#2 →
    n.toNat * (if mode = 1#2 then 4 else 3) ≤ s.cap →
    ∃ t, exec (.create n mode pin) s = .next t ∧
      layoutCode t.mode = mode ∧
      (n.toNat * (if mode = 1#2 then 4 else 3) < 2 ^ 32 → t.size.toNat = n.toNat * (if mode = 1#2 then 4 else 3)) ∧
      t.start = 0#32 ∧ t.length = n ∧ t.brightness = 255#8 ∧ t.pin = pin ∧
      (∀ a, t.byteAt a = if a < t.size.toNat then some 0#8 else none) ∧
      t.cap = s.cap ∧ t.commands = s.commands ∧
      t.responses = s.responses ++ [⟨.ok, 0#32⟩] ∧ t.events = s.events ++ [.pinWrite pin false]

/-- CREATE (R80, R122) with a legal layout whose exact byte count, with the stride of the requested layout, exceeds `CAP`:
it responds (ALLOC, 0) and changes nothing at all. The product does not wrap. Rests on D10, D11(b), (d). -/
def Obligations.CreateRefusesWhatDoesNotFit : Prop :=
  ∀ (n : Word) (mode : BitVec 2) (pin : Byte) (s : State), mode ≠ 3#2 →
    s.cap < n.toNat * (if mode = 1#2 then 4 else 3) →
    exec (.create n mode pin) s = .next { s with responses := s.responses ++ [⟨.alloc, 0#32⟩] }

/-- SETRANGE (R81): it refuses exactly the windows with `(start + length) * stride > SIZE`, computed exactly, with (RANGE,
0) and no change; otherwise it sets `START` and `LENGTH`, responds (OK, 0), and changes nothing else. Rests on D14. -/
def Obligations.SetrangeSetsOrRefusesTheWindow : Prop :=
  (∀ a d : Word, decode (commandWord 0x11#8 a d) = .ok (.setrange a d)) ∧
  ∀ (start length : Word) (s : State),
    ((start.toNat + length.toNat) * (if s.mode = .rgbW then 4 else 3) ≤ s.size.toNat →
      exec (.setrange start length) s =
        .next { s with start := start, length := length, responses := s.responses ++ [⟨.ok, 0#32⟩] }) ∧
    (s.size.toNat < (start.toNat + length.toNat) * (if s.mode = .rgbW then 4 else 3) →
      exec (.setrange start length) s = .next { s with responses := s.responses ++ [⟨.range, 0#32⟩] })

/-- SETBR (R82): opcode 0x12; `BRIGHTNESS <- d[7:0]`, response (OK, 0), nothing else changes: the buffer is not touched and
nothing is transmitted. -/
def Obligations.SetbrStoresTheLowByte : Prop :=
  (∀ a d : Word, decode (commandWord 0x12#8 a d) = .ok (.setbr d)) ∧
  ∀ (value : Word) (s : State), exec (.setbr value) s =
    .next { s with brightness := value.extractLsb' 0 8, responses := s.responses ++ [⟨.ok, 0#32⟩] }

/-- SETBRP (R83): opcode 0x13; `BRIGHTNESS` is the low byte of the integer nearest to `255 * percent / 100`, a tie going up;
response (OK, 0); nothing else changes. Rests on D16 (exact arithmetic, ties up). -/
def Obligations.SetbrpRoundsHalfUp : Prop :=
  (∀ a d : Word, decode (commandWord 0x13#8 a d) = .ok (.setbrp d)) ∧
  ∀ (percent : Word) (s : State) (q : Nat), 100 * q ≤ 255 * percent.toNat + 50 → 255 * percent.toNat + 50 < 100 * q + 100 →
    exec (.setbrp percent) s =
      .next { s with brightness := BitVec.ofNat 8 q, responses := s.responses ++ [⟨.ok, 0#32⟩] }

/-! ## Pixels -/

/-- Channel scaling (R90): at 255 a channel is written as it is; below 255 it is `(ch * BRIGHTNESS) >> 8`, at most 253, and 0
at brightness 0. -/
def Obligations.ScalingFollowsBrightness : Prop :=
  (∀ ch : Byte, scaleChannel 255#8 ch = ch) ∧
  (∀ br ch : Byte, br ≠ 255#8 → (scaleChannel br ch).toNat = (ch.toNat * br.toNat) >>> 8 ∧ (scaleChannel br ch).toNat ≤ 253) ∧
  (∀ ch : Byte, scaleChannel 0#8 ch = 0#8) ∧ scaleChannel 254#8 255#8 = 253#8 ∧ scaleChannel 128#8 255#8 = 127#8

/-- SETPIX (R92): for an index in `[0, LENGTH)`, compared as integers, it writes the scaled channels at the byte offset `(index
+ START) * stride` in the order of the layout (R26, R91) and no other byte (the white byte among them), responds (OK, 0) and
changes nothing else; for any other index it responds (OK, 0) and changes nothing at all. The invariant R18 is a premise
where bytes are written. -/
def Obligations.SetpixWritesOnePixel : Prop :=
  (∀ a d : Word, decode (commandWord 0x14#8 a d) = .ok (.setpix a d)) ∧
  (∀ (index rgb : Word) (s : State), s.Inv → 0 ≤ index.toInt → index.toInt < s.length.toNat →
    ∀ (o : Nat) (r g b : Byte), o = s.pixelOffset (index.toInt.toNat + s.start.toNat) →
      r = scaleChannel s.brightness (rgb.extractLsb' 16 8) → g = scaleChannel s.brightness (rgb.extractLsb' 8 8) →
      b = scaleChannel s.brightness (rgb.extractLsb' 0 8) →
    ∃ t, exec (.setpix index rgb) s = .next t ∧
      t = { s with buf := t.buf, responses := s.responses ++ [⟨.ok, 0#32⟩] } ∧
      t.byteAt o = some (if s.mode = .rgbAlt then r else g) ∧
      t.byteAt (o + 1) = some (if s.mode = .rgbAlt then g else r) ∧
      t.byteAt (o + 2) = some b ∧
      ∀ a, (a < o ∨ o + 3 ≤ a) → t.byteAt a = s.byteAt a) ∧
  ∀ (index rgb : Word) (s : State), ¬(0 ≤ index.toInt ∧ index.toInt < s.length.toNat) →
    exec (.setpix index rgb) s = .next { s with responses := s.responses ++ [⟨.ok, 0#32⟩] }

/-- GETPIX (R93): for an index in range it answers the stored bytes of the pixel in `0xRRGGBB` order, brightness not undone and
the white byte left out; for any other index (OK, 0). It changes nothing else. Rests on D15. -/
def Obligations.GetpixReadsOnePixel : Prop :=
  (∀ a d : Word, decode (commandWord 0x15#8 a d) = .ok (.getpix a)) ∧
  (∀ (index : Word) (s : State), s.Inv → 0 ≤ index.toInt → index.toInt < s.length.toNat →
    ∀ o : Nat, o = s.pixelOffset (index.toInt.toNat + s.start.toNat) →
    ∃ b0 b1 b2 : Byte, s.byteAt o = some b0 ∧ s.byteAt (o + 1) = some b1 ∧ s.byteAt (o + 2) = some b2 ∧
      exec (.getpix index) s = .next { s with responses := s.responses ++ [⟨.ok,
        if s.mode = .rgbAlt then 0#8 ++ b0 ++ b1 ++ b2 else 0#8 ++ b1 ++ b0 ++ b2⟩] }) ∧
  ∀ (index : Word) (s : State), ¬(0 ≤ index.toInt ∧ index.toInt < s.length.toNat) →
    exec (.getpix index) s = .next { s with responses := s.responses ++ [⟨.ok, 0#32⟩] }

/-- GETPIX after SETPIX at the same index returns the scaled channels of the colour written, in every layout (R92, R93, R139):
the read inverts the placement and does not undo the brightness. Rests on D15. -/
def Obligations.GetpixReturnsTheScaledColourWritten : Prop :=
  ∀ (index rgb : Word) (s : State), s.Inv → 0 ≤ index.toInt → index.toInt < s.length.toNat →
    ∃ t u, exec (.setpix index rgb) s = .next t ∧ exec (.getpix index) t = .next u ∧
      u.responses = t.responses ++ [⟨.ok, 0#8 ++ scaleChannel s.brightness (rgb.extractLsb' 16 8) ++
        scaleChannel s.brightness (rgb.extractLsb' 8 8) ++ scaleChannel s.brightness (rgb.extractLsb' 0 8)⟩]

/-- FILL (R94): it writes the scaled channels (R90, R91) at every pixel of `[START, START + LENGTH)`, and no other byte: none
outside the window and no white byte. It responds (OK, 0) and changes nothing else. -/
def Obligations.FillWritesTheWindow : Prop :=
  (∀ a d : Word, decode (commandWord 0x16#8 a d) = .ok (.fill d)) ∧
  ∀ (rgb : Word) (s : State), s.Inv →
    ∀ r g b : Byte, r = scaleChannel s.brightness (rgb.extractLsb' 16 8) →
      g = scaleChannel s.brightness (rgb.extractLsb' 8 8) → b = scaleChannel s.brightness (rgb.extractLsb' 0 8) →
    ∃ t, exec (.fill rgb) s = .next t ∧
      t = { s with buf := t.buf, responses := s.responses ++ [⟨.ok, 0#32⟩] } ∧
      (∀ p, s.start.toNat ≤ p → p < s.start.toNat + s.length.toNat →
        t.byteAt (s.pixelOffset p) = some (if s.mode = .rgbAlt then r else g) ∧
        t.byteAt (s.pixelOffset p + 1) = some (if s.mode = .rgbAlt then g else r) ∧
        t.byteAt (s.pixelOffset p + 2) = some b) ∧
      ∀ a, (¬s.inWindow a ∨ (s.mode = .rgbW ∧ a % 4 = 3)) → t.byteAt a = s.byteAt a

/-- CLEAR (R95): it zeroes exactly the bytes of `[START * stride, LENGTH * stride)`, the source's formula taken literally (C2),
white bytes included, responds (OK, 0), and changes nothing else. -/
def Obligations.ClearZeroesItsLiteralRange : Prop :=
  (∀ a d : Word, decode (commandWord 0x17#8 a d) = .ok .clear) ∧
  ∀ s : State, s.Inv →
    ∃ t, exec .clear s = .next t ∧ t = { s with buf := t.buf, responses := s.responses ++ [⟨.ok, 0#32⟩] } ∧
      ∀ a, t.byteAt a =
        if s.start.toNat * s.stride ≤ a ∧ a < s.length.toNat * s.stride then some 0#8 else s.byteAt a

/-- ROTATE (R96): afterwards byte `c` of logical pixel `j` holds what byte `c` of logical pixel `(j - offset) mod LENGTH` held
before, for every signed offset; no byte outside the window changes; the response is (OK, 0) and nothing else changes. With
`LENGTH = 0` nothing moves. Rests on D17. -/
def Obligations.RotateMovesWholePixels : Prop :=
  (∀ a d : Word, decode (commandWord 0x18#8 a d) = .ok (.rotate a)) ∧
  ∀ (offset : Word) (s : State), s.Inv →
    ∃ t, exec (.rotate offset) s = .next t ∧ t = { s with buf := t.buf, responses := s.responses ++ [⟨.ok, 0#32⟩] } ∧
      (∀ j c, j < s.length.toNat → c < s.stride →
        t.byteAt ((s.start.toNat + j) * s.stride + c) =
          s.byteAt ((s.start.toNat + (((j : Int) - offset.toInt) % (s.length.toNat : Int)).toNat) * s.stride + c)) ∧
      ∀ a, ¬s.inWindow a → t.byteAt a = s.byteAt a

/-- The closure laws of ROTATE (R98, derived by the spec from R96): ROTATE `k1` then ROTATE `k2` leaves the buffer that one
ROTATE by any offset congruent to `k1 + k2` modulo `LENGTH` leaves. -/
def Obligations.RotationsCompose : Prop :=
  ∀ (k1 k2 k3 : Word) (s : State), s.Inv →
    (k1.toInt + k2.toInt) % (s.length.toNat : Int) = k3.toInt % (s.length.toNat : Int) →
    ∃ t u v, exec (.rotate k1) s = .next t ∧ exec (.rotate k2) t = .next u ∧ exec (.rotate k3) s = .next v ∧
      u.buf = v.buf

/-- Cyclic closure (R98): ROTATE 1, issued `LENGTH` times, returns the buffer to its original content, for any `LENGTH`. -/
def Obligations.RotateByOneLengthTimesIsTheIdentity : Prop :=
  ∀ s : State, s.Inv →
    ∃ t, runHost (List.replicate s.length.toNat (.issue (.rotate 1#32))) s = .next t ∧ t.buf = s.buf

/-- SHOW (R97): it emits one `Transmit(PIN, bytes)` with the `SIZE` live bytes in ascending address order, responds (OK, 0), and
writes nothing. Rests on D18 (order; the event for an empty buffer). -/
def Obligations.ShowTransmitsTheLiveBytes : Prop :=
  (∀ a d : Word, decode (commandWord 0x19#8 a d) = .ok .showBuf) ∧
  ∀ s : State, s.Inv → ∃ bytes : List Byte, bytes.length = s.size.toNat ∧
    (∀ a, a < s.size.toNat → bytes[a]? = s.byteAt a) ∧
    exec .showBuf s = .next { s with responses := s.responses ++ [⟨.ok, 0#32⟩],
                                     events := s.events ++ [.transmit s.pin bytes] }

/-! ## Frames and whole-machine rules -/

/-- The write sets (R22, R10 to R17): no command writes `CAP` or the host's queue; `MODE`, `SIZE` and `PIN` are written by CREATE
alone; `START` and `LENGTH` by CREATE and SETRANGE; `BRIGHTNESS` by CREATE, SETBR and SETBRP; the buffer by CREATE, SETPIX,
FILL, CLEAR and ROTATE; events are emitted by CREATE and SHOW. Every other part of the state is unchanged when a command
completes. R22 is derived by the spec. -/
def Obligations.CommandsWriteOnlyTheirWriteSet : Prop :=
  ∀ (i : Instr) (s t : State), exec i s = .next t →
    t.cap = s.cap ∧ t.commands = s.commands ∧
    ((∀ n m p, i ≠ .create n m p) → t.mode = s.mode ∧ t.size = s.size ∧ t.pin = s.pin) ∧
    ((∀ n m p, i ≠ .create n m p) → (∀ a b, i ≠ .setrange a b) → t.start = s.start ∧ t.length = s.length) ∧
    ((∀ n m p, i ≠ .create n m p) → (∀ v, i ≠ .setbr v) → (∀ v, i ≠ .setbrp v) → t.brightness = s.brightness) ∧
    ((∀ n m p, i ≠ .create n m p) → (∀ x c, i ≠ .setpix x c) → (∀ c, i ≠ .fill c) → i ≠ .clear →
      (∀ k, i ≠ .rotate k) → t.buf = s.buf) ∧
    ((∀ n m p, i ≠ .create n m p) → i ≠ .showBuf → t.events = s.events)

/-- Only SHOW transmits, with the bound pin, and only a successful CREATE writes a pin, the one it binds, low (R48, R140): what a
command emits is nothing, or that one event. Rests on D1, D18. -/
def Obligations.OnlyShowTransmitsAndOnlyCreateWritesAPin : Prop :=
  ∀ (i : Instr) (s t : State), exec i s = .next t →
    t.events = s.events ∨
    (i = .showBuf ∧ ∃ bytes, t.events = s.events ++ [.transmit s.pin bytes]) ∨
    ∃ n m p, i = .create n m p ∧ t.pin = p ∧ t.events = s.events ++ [.pinWrite p false]

/-- No command but CREATE changes a byte outside the logical window `[START * stride, (START + LENGTH) * stride)` (R30), in any
state. -/
def Obligations.BytesOutsideTheWindowAreKept : Prop :=
  ∀ (i : Instr) (s t : State), exec i s = .next t → (∀ n m p, i ≠ .create n m p) →
    ∀ a, ¬s.inWindow a → t.byteAt a = s.byteAt a

/-- `BRIGHTNESS` is read only at the moment SETPIX or FILL writes a pixel (R15, R139): no other command that leaves it alone
behaves differently under another brightness. -/
def Obligations.BrightnessIsReadByPixelWritesOnly : Prop :=
  ∀ (i : Instr) (s t : State) (br : Byte), (∀ x c, i ≠ .setpix x c) → (∀ c, i ≠ .fill c) → (∀ n m p, i ≠ .create n m p) →
    (∀ v, i ≠ .setbr v) → (∀ v, i ≠ .setbrp v) → exec i s = .next t →
    exec i { s with brightness := br } = .next { t with brightness := br }

/-- The codec commands and HSL read no state: their response is the same in every two states (R22, R74). -/
def Obligations.CodecAndHslReadNoState : Prop :=
  ∀ (i : Instr), ((∃ r g b, i = .pack r g b) ∨ (∃ p, i = .unpr p) ∨ (∃ p, i = .unpg p) ∨ (∃ p, i = .unpb p) ∨
      ∃ h sv lv, i = .hsl h sv lv) →
    ∃ data : Word, ∀ s : State, exec i s = .next { s with responses := s.responses ++ [⟨.ok, data⟩] }

/-! ## Reset and invariants -/

/-- The reset state (R21, R135, R136), for every capacity: the registers as tabulated, every byte dead, nothing presented,
responded or emitted. `State.reset` is that state at its own capacity. Rests on D20; that a dead byte holds no value is the
model's choice (log 4), and the capacity is the model's own (log 3). -/
def Obligations.ResetStateIsAsTabulated : Prop :=
  (∀ cap : Nat, layoutCode (State.resetWith cap).mode = 0#2 ∧ (State.resetWith cap).size = 0#32 ∧
    (State.resetWith cap).start = 0#32 ∧ (State.resetWith cap).length = 0#32 ∧
    (State.resetWith cap).brightness = 255#8 ∧ (State.resetWith cap).pin = 0#8 ∧
    (State.resetWith cap).commands = [] ∧ (State.resetWith cap).responses = [] ∧ (State.resetWith cap).events = [] ∧
    (∀ a, (State.resetWith cap).byteAt a = none) ∧ (State.resetWith cap).cap = cap) ∧
  State.reset = State.resetWith State.reset.cap ∧ Sys2Proof.core.reset = State.reset

/-- "Reset establishes them" (R18): the invariants and the white-byte invariant hold at reset, for every capacity. -/
def Obligations.ResetEstablishesTheInvariants : Prop :=
  (∀ cap, (State.resetWith cap).Inv ∧ (State.resetWith cap).WhiteZero) ∧ State.reset.Inv ∧ State.reset.WhiteZero

/-- CREATE 0, RGB, 0 completes in every state and "brings every register back to its reset value", but it responds and emits a
`PinWrite` (R135). Rests on D11, D20. -/
def Obligations.CreateZeroRestoresTheResetRegisters : Prop :=
  ∀ s : State, exec (.create 0#32 0#2 0#8) s = .next { State.resetWith s.cap with
    commands := s.commands, responses := s.responses ++ [⟨.ok, 0#32⟩], events := s.events ++ [.pinWrite 0#8 false] }

/-- Commands issued before the first CREATE are harmless (R137, R124): with `SIZE = 0` and `LENGTH = 0` every command but CREATE
completes, responds OK (or RANGE for a SETRANGE that is not `0, 0`), keeps the string but for `BRIGHTNESS`, which only SETBR and
SETBRP change, and emits nothing but SHOW's empty `Transmit`. Rests on D20. -/
def Obligations.CommandsBeforeCreateAreHarmless : Prop :=
  ∀ (i : Instr) (s : State), s.Inv → s.size = 0#32 → s.length = 0#32 → (∀ n m p, i ≠ .create n m p) →
    ∃ (t : State) (r : Response), exec i s = .next t ∧ t.responses = s.responses ++ [r] ∧
      (r.status = .ok ∨ (r.status = .range ∧ ∃ a b, i = .setrange a b ∧ ¬(a = 0#32 ∧ b = 0#32))) ∧
      s.SameString { t with brightness := s.brightness } ∧
      ((∀ v, i ≠ .setbr v) → (∀ v, i ≠ .setbrp v) → t.brightness = s.brightness) ∧
      t.events = if i = .showBuf then s.events ++ [.transmit s.pin []] else s.events

/-- Every step keeps the invariants R18: `SIZE <= CAP`, `SIZE` a multiple of the stride, the window inside the live buffer, a legal
mode, and a buffer that holds a value at exactly the live addresses (the last is the model's form of R17, log 4). The first clause
is for every `CAP`: its only premise on the command is that a CREATE that fits `CAP` needs fewer than 2^32 bytes, since the spec
states no `SIZE` for a larger one (log 2). The second says that a `CAP` below 2^32, which meets that premise, stays so. -/
def Obligations.EveryStepKeepsTheInvariants : Prop :=
  (∀ s t : State, s.Inv → step s = .next t →
    (∀ w ws n mode pin, s.commands = w :: ws → decode w = .ok (.create n mode pin) →
      n.toNat * (if mode = 1#2 then 4 else 3) ≤ s.cap → n.toNat * (if mode = 1#2 then 4 else 3) < 2 ^ 32) → t.Inv) ∧
  ∀ s t : State, s.cap < 2 ^ 32 → s.Inv → step s = .next t → t.cap < 2 ^ 32 ∧ t.Inv

/-- The white bytes of an RGB_W string are always 0 (R91, D23): every step, from any state in which they are, keeps them so. -/
def Obligations.EveryStepKeepsWhiteBytesZero : Prop :=
  ∀ s t : State, s.WhiteZero → step s = .next t → t.WhiteZero

/-- "There is therefore no bounds fault in the core" (R31): from a state with the invariants every step completes, whatever word is
presented: no access at or above `SIZE` is made, and nothing is refused. R31 is derived by the spec from R18. -/
def Obligations.NoStepStops : Prop :=
  ∀ s : State, s.Inv → s.Safe

/-- Every step keeps the memory in its canonical form, from any state (log 4). -/
def Obligations.EveryStepKeepsMemoryCanonical : Prop :=
  ∀ s t : State, Memory.wf s.buf → step s = .next t → Memory.wf t.buf

/-! ## Host sequences -/

/-- `create(pixelCount)` of the public path (R106), for both OPEN parameters and every `CAP`: when `3 * pixelCount` bytes fit `CAP` and
the 32 bits of `SIZE` (log 2), it leaves a string of stride 3 and the default layout, `start = 0`, `length = pixelCount`, brightness 255, every live byte 0, the default pin bound and
driven low once. Rests on D11, D13. -/
def Obligations.HostCreateMakesAThreeByteString : Prop :=
  ∀ (c : Config.HostDefaults) (n : Nat) (s : State), n * 3 ≤ s.cap → n * 3 < 2 ^ 32 →
    ∃ t, runHost (hostCreate c n) s = .next t ∧ t.stride = 3 ∧ t.mode = c.mode ∧ t.size.toNat = n * 3 ∧
      t.start = 0#32 ∧ t.length.toNat = n ∧ t.brightness = 255#8 ∧ t.pin = c.pin ∧
      (∀ a, a < n * 3 → t.byteAt a = some 0#8) ∧ t.events = s.events ++ [.pinWrite c.pin false]

/-- The controller's `showColor`, `clear` and `rotate` are FILL, CLEAR and ROTATE followed by a transmit of the resulting buffer
(R107, R110, R111). -/
def Obligations.ControllerOperationsTransmitTheirResult : Prop :=
  ∀ (s : State), s.Inv → ∀ (rgb offset : Int),
    ∀ p ∈ [(hostShowColor rgb, Instr.fill (BitVec.ofInt 32 rgb)), (hostClear, .clear),
      (hostRotate offset, .rotate (BitVec.ofInt 32 offset))],
    ∃ (u : State) (bytes : List Byte), exec p.2 s = .next u ∧ bytes.length = u.size.toNat ∧
      (∀ a, a < u.size.toNat → bytes[a]? = u.byteAt a) ∧
      runHost p.1 s = .next { u with responses := u.responses ++ [⟨.ok, 0#32⟩],
                                     events := u.events ++ [.transmit s.pin bytes] }

/-- `showRainbow()` (R113 to R117) on a string whose window has `steps` pixels: with one pixel its colour is `hsl(35901, 100, 50)`
(D24); with two or more, pixel 0 is `hsl(1, 100, 50)`, the last `hsl(360, 100, 50)`, and interior pixel `i` has hue `(100 + i *
(35900 div steps)) div 100 + 360`. Each is stored scaled and in the layout's order; no byte outside the window and no white byte
changes; then the whole buffer is transmitted once. With a length of 0 or less the sequence is empty, "no command at all, not
even SHOW" (R113): it leaves every state as it is. -/
def Obligations.RainbowColoursEveryPixelAndTransmits : Prop :=
  (∀ length : Int, length ≤ 0 → hostShowRainbow length = [] ∧ ∀ s : State, runHost (hostShowRainbow length) s = .next s) ∧
  ∀ s : State, s.Inv → 0 < s.length.toNat →
    ∃ (t : State) (bytes : List Byte), runHost (hostShowRainbow s.length.toNat) s = .next t ∧
      t = { s with buf := t.buf, responses := t.responses, events := s.events ++ [.transmit s.pin bytes] } ∧
      bytes.length = s.size.toNat ∧ (∀ a, a < s.size.toNat → bytes[a]? = t.byteAt a) ∧
      t.responses.length = s.responses.length + 2 * s.length.toNat + 1 ∧
      (∀ i, i < s.length.toNat → ∀ (hue : Int) (rgb : Word),
        hue = (if s.length.toNat = 1 then 35901 else if i = 0 then 1 else if i + 1 = s.length.toNat then 360
          else (100 + (i : Int) * (35900 / (s.length.toNat : Int))) / 100 + 360) →
        rgb = hslColour hue 100 50 → ∀ o, o = s.pixelOffset (i + s.start.toNat) →
        t.byteAt o = some (scaleChannel s.brightness (if s.mode = .rgbAlt then unpackRed rgb else unpackGreen rgb)) ∧
        t.byteAt (o + 1) = some (scaleChannel s.brightness (if s.mode = .rgbAlt then unpackGreen rgb else unpackRed rgb)) ∧
        t.byteAt (o + 2) = some (scaleChannel s.brightness (unpackBlue rgb))) ∧
      ∀ a, (¬s.inWindow a ∨ (s.mode = .rgbW ∧ a % 4 = 3)) → t.byteAt a = s.byteAt a
end

