-- ==== Sys2Proof/Laws/Memory.lean ====
section
/-! SUPPORT. The laws of the buffer memory: read after write, the addresses a memory lists, and its canonical form, which
every operation keeps. -/

namespace Sys2Proof.Machine

/-- Bytes written one after another. -/
def Memory.writeAll (m : Memory) (ws : List (Nat × Byte)) : Memory :=
  ws.foldl (fun m w => Memory.write m w.1 w.2) m

@[simp] theorem read_nil (a : Nat) : Memory.read [] a = none := rfl

@[simp] theorem writeAll_nil (m : Memory) : Memory.writeAll m [] = m := rfl

@[simp] theorem writeAll_cons (m : Memory) (w : Nat × Byte) (ws : List (Nat × Byte)) :
    Memory.writeAll m (w :: ws) = Memory.writeAll (Memory.write m w.1 w.2) ws := rfl

/-- A read gives a value exactly at the listed addresses. -/
theorem read_isSome_iff (m : Memory) (a : Nat) : (Memory.read m a).isSome ↔ a ∈ m.map Prod.fst := by
  induction m with
  | nil => simp
  | cons c m ih =>
    obtain ⟨k, v⟩ := c
    by_cases h : k = a
    · simp [Memory.read, h]
    · simp only [Memory.read, h, if_false, ih, List.map_cons, List.mem_cons]
      constructor
      · exact .inr
      · rintro (h' | h')
        · exact absurd h'.symm h
        · exact h'

/-- A read at the address just written gives the value written. -/
@[simp] theorem read_write_same (m : Memory) (a : Nat) (v : Byte) : Memory.read (Memory.write m a v) a = some v := by
  induction m with
  | nil => simp [Memory.write, Memory.read]
  | cons c m ih =>
    obtain ⟨k, w⟩ := c
    simp only [Memory.write]
    split_ifs with h1 h2
    · simp [Memory.read]
    · simp [Memory.read]
    · simp [Memory.read, Ne.symm h2, ih]

/-- A write leaves every other address alone. -/
theorem read_write_other (m : Memory) {a b : Nat} (v : Byte) (h : b ≠ a) :
    Memory.read (Memory.write m a v) b = Memory.read m b := by
  induction m with
  | nil => simp [Memory.write, Memory.read, Ne.symm h, Memory.unlisted]
  | cons c m ih =>
    obtain ⟨k, w⟩ := c
    simp only [Memory.write]
    split_ifs with h1 h2
    · simp [Memory.read, Ne.symm h]
    · subst h2; simp [Memory.read, Ne.symm h]
    · simp [Memory.read, ih]

/-- Writing to an address outside a list of writes. -/
theorem read_writeAll_other (m : Memory) (ws : List (Nat × Byte)) {b : Nat} (h : ∀ w ∈ ws, w.1 ≠ b) :
    Memory.read (Memory.writeAll m ws) b = Memory.read m b := by
  induction ws generalizing m with
  | nil => rfl
  | cons w ws ih =>
    rw [writeAll_cons, ih _ fun w' hw' => h w' (by simp [hw']), read_write_other _ _ (h w (by simp)).symm]

/-- When all writes to an address agree on its value, and there is one, that value is read. -/
theorem read_writeAll_eq (m : Memory) (ws : List (Nat × Byte)) {b : Nat} {v : Byte} (hm : (b, v) ∈ ws)
    (h : ∀ w ∈ ws, w.1 = b → w.2 = v) : Memory.read (Memory.writeAll m ws) b = some v := by
  induction ws generalizing m with
  | nil => simp at hm
  | cons w ws ih =>
    rw [writeAll_cons]
    by_cases hin : ∃ w' ∈ ws, w'.1 = b
    · obtain ⟨w', hw', rfl⟩ := hin
      have : w'.2 = v := h w' (by simp [hw']) rfl
      exact ih _ (by rw [← this]; exact hw') fun x hx => h x (by simp [hx])
    · have hnot : ∀ w' ∈ ws, w'.1 ≠ b := fun w' hw' e => hin ⟨w', hw', e⟩
      have hw : w = (b, v) := by
        rcases List.mem_cons.1 hm with h' | h'
        · exact h'.symm
        · exact absurd rfl (hnot _ h')
      rw [read_writeAll_other _ _ hnot, hw, read_write_same]

/-- The addresses listed after a write. -/
theorem mem_keys_write (m : Memory) (a b : Nat) (v : Byte) :
    b ∈ (Memory.write m a v).map Prod.fst ↔ b = a ∨ b ∈ m.map Prod.fst := by
  rw [← read_isSome_iff, ← read_isSome_iff]
  by_cases h : b = a
  · subst h; simp
  · rw [read_write_other _ _ h]; simp [h]

/-- In a memory whose addresses rise, a write to a listed address lists the same addresses. -/
theorem keys_write_of_mem (m : Memory) {a : Nat} (v : Byte) (hs : (m.map Prod.fst).Pairwise (· < ·))
    (h : a ∈ m.map Prod.fst) : (Memory.write m a v).map Prod.fst = m.map Prod.fst := by
  induction m with
  | nil => simp at h
  | cons c m ih =>
    obtain ⟨k, w⟩ := c
    rw [List.map_cons, List.pairwise_cons] at hs
    simp only [Memory.write]
    split_ifs with h1 h2
    · exfalso
      rw [List.map_cons, List.mem_cons] at h
      rcases h with h' | h'
      · simp only at h'; omega
      · have := hs.1 a h'
        simp only at this; omega
    · simp [h2]
    · have : a ∈ m.map Prod.fst := by
        rcases List.mem_cons.1 (List.map_cons (f := Prod.fst) ▸ h) with h' | h'
        · exact absurd h' h2
        · exact h'
      simp [ih hs.2 this]

/-- A write keeps the canonical form. -/
theorem write_wf (m : Memory) (a : Nat) (v : Byte) (h : Memory.wf m) : Memory.wf (Memory.write m a v) := by
  refine ⟨?_, fun c _ => by simp [Memory.unlisted]⟩
  replace h := h.1
  induction m with
  | nil => simp [Memory.write]
  | cons c m ih =>
    obtain ⟨k, w⟩ := c
    rw [List.map_cons, List.pairwise_cons] at h
    simp only [Memory.write]
    split_ifs with h1 h2
    · simp only [List.map_cons, List.pairwise_cons, List.mem_cons, forall_eq_or_imp]
      exact ⟨⟨h1, fun b hb => lt_trans h1 (h.1 b hb)⟩, h⟩
    · rw [List.map_cons, List.pairwise_cons]
      exact ⟨fun b hb => h2 ▸ h.1 b hb, h.2⟩
    · rw [List.map_cons, List.pairwise_cons]
      refine ⟨fun b hb => ?_, ih h.2⟩
      rcases (mem_keys_write m a b v).1 hb with rfl | hb
      · simp only; omega
      · exact h.1 b hb

/-- A list of writes keeps the canonical form. -/
theorem writeAll_wf (m : Memory) (ws : List (Nat × Byte)) (h : Memory.wf m) : Memory.wf (Memory.writeAll m ws) := by
  induction ws generalizing m with
  | nil => exact h
  | cons w ws ih => exact ih _ (write_wf _ _ _ h)

/-- Writes to listed addresses list the same addresses. -/
theorem keys_writeAll_of_mem (m : Memory) (ws : List (Nat × Byte)) (hs : (m.map Prod.fst).Pairwise (· < ·))
    (h : ∀ w ∈ ws, w.1 ∈ m.map Prod.fst) : (Memory.writeAll m ws).map Prod.fst = m.map Prod.fst := by
  induction ws generalizing m with
  | nil => rfl
  | cons w ws ih =>
    have hk := keys_write_of_mem m w.2 hs (h w (by simp))
    rw [writeAll_cons, ih _ (hk ▸ hs) fun x hx => hk ▸ h x (by simp [hx]), hk]

/-- The addresses of a fresh buffer. -/
@[simp] theorem keys_zeroed (n : Nat) : (Memory.zeroed n).map Prod.fst = List.range n := by
  simp [Memory.zeroed, Function.comp_def]

/-- A fresh buffer reads 0 at the addresses below its size, and holds no value at the others. -/
theorem read_zeroed (n a : Nat) : Memory.read (Memory.zeroed n) a = if a < n then some 0#8 else none := by
  have key : ∀ l : List Nat, Memory.read (l.map fun a => (a, 0#8)) a = if a ∈ l then some 0#8 else none := by
    intro l
    induction l with
    | nil => simp
    | cons k l ih =>
      by_cases h : k = a
      · simp [Memory.read, h]
      · simp [Memory.read, h, ih, Ne.symm h]
  have h := key (List.range n)
  simp only [List.mem_range] at h
  exact h

/-- Addresses listed as a range rise. -/
theorem pairwise_of_keys {m : Memory} {n : Nat} (h : m.map Prod.fst = List.range n) :
    (m.map Prod.fst).Pairwise (· < ·) := h ▸ List.pairwise_lt_range

/-- A memory that lists a range is canonical. -/
theorem wf_of_keys {m : Memory} {n : Nat} (h : m.map Prod.fst = List.range n) : Memory.wf m :=
  ⟨pairwise_of_keys h, fun _ _ => by simp [Memory.unlisted]⟩

/-- A fresh buffer is canonical. -/
theorem zeroed_wf (n : Nat) : Memory.wf (Memory.zeroed n) := wf_of_keys (keys_zeroed n)

/-- Two canonical memories that read alike are the same memory. -/
theorem eq_of_read_eq {m m' : Memory} {n : Nat} (h : m.map Prod.fst = List.range n) (h' : m'.map Prod.fst = List.range n)
    (hr : ∀ a, a < n → Memory.read m a = Memory.read m' a) : m = m' := by
  have key : ∀ (l : List Nat) (m m' : Memory), l.Nodup → m.map Prod.fst = l → m'.map Prod.fst = l →
      (∀ a ∈ l, Memory.read m a = Memory.read m' a) → m = m' := by
    intro l
    induction l with
    | nil => intro m m' _ hm hm' _; rw [List.map_eq_nil_iff] at hm hm'; rw [hm, hm']
    | cons k l ih =>
      intro m m' hl hm hm' hr
      obtain ⟨c, m, rfl⟩ : ∃ c m₀, m = c :: m₀ := by cases m with
        | nil => simp at hm
        | cons c m₀ => exact ⟨c, m₀, rfl⟩
      obtain ⟨c', m', rfl⟩ : ∃ c m₀, m' = c :: m₀ := by cases m' with
        | nil => simp at hm'
        | cons c m₀ => exact ⟨c, m₀, rfl⟩
      obtain ⟨a, v⟩ := c
      obtain ⟨a', v'⟩ := c'
      simp only [List.map_cons, List.cons.injEq] at hm hm'
      obtain ⟨rfl, hm⟩ := hm
      obtain ⟨rfl, hm'⟩ := hm'
      rw [List.nodup_cons] at hl
      have h0 := hr a' (by simp)
      simp only [Memory.read, if_true, Option.some.injEq] at h0
      rw [h0, ih m m' hl.2 hm hm' fun b hb => ?_]
      have hne : a' ≠ b := fun e => hl.1 (e ▸ hb)
      simpa [Memory.read, hne] using hr b (by simp [hb])
  exact key _ m m' List.nodup_range h h' fun a ha => hr a (List.mem_range.1 ha)

end Sys2Proof.Machine
end

