-- ==== Sys2Proof/Laws/State.lean ====
section
/-! SUPPORT. One lemma per field per update of State: `respond`, `emit`, `present`, `makeString`, `resetWith`. -/

namespace Sys2Proof.Machine

section Respond
variable (s : State) (st : Status) (d : Word)
@[simp] theorem respond_cap : (s.respond st d).cap = s.cap := rfl
@[simp] theorem respond_mode : (s.respond st d).mode = s.mode := rfl
@[simp] theorem respond_size : (s.respond st d).size = s.size := rfl
@[simp] theorem respond_start : (s.respond st d).start = s.start := rfl
@[simp] theorem respond_length : (s.respond st d).length = s.length := rfl
@[simp] theorem respond_brightness : (s.respond st d).brightness = s.brightness := rfl
@[simp] theorem respond_pin : (s.respond st d).pin = s.pin := rfl
@[simp] theorem respond_buf : (s.respond st d).buf = s.buf := rfl
@[simp] theorem respond_commands : (s.respond st d).commands = s.commands := rfl
@[simp] theorem respond_responses : (s.respond st d).responses = s.responses ++ [⟨st, d⟩] := rfl
@[simp] theorem respond_events : (s.respond st d).events = s.events := rfl
@[simp] theorem respond_stride : (s.respond st d).stride = s.stride := rfl
end Respond

section Emit
variable (s : State) (e : Event)
@[simp] theorem emit_cap : (s.emit e).cap = s.cap := rfl
@[simp] theorem emit_mode : (s.emit e).mode = s.mode := rfl
@[simp] theorem emit_size : (s.emit e).size = s.size := rfl
@[simp] theorem emit_start : (s.emit e).start = s.start := rfl
@[simp] theorem emit_length : (s.emit e).length = s.length := rfl
@[simp] theorem emit_brightness : (s.emit e).brightness = s.brightness := rfl
@[simp] theorem emit_pin : (s.emit e).pin = s.pin := rfl
@[simp] theorem emit_buf : (s.emit e).buf = s.buf := rfl
@[simp] theorem emit_commands : (s.emit e).commands = s.commands := rfl
@[simp] theorem emit_responses : (s.emit e).responses = s.responses := rfl
@[simp] theorem emit_events : (s.emit e).events = s.events ++ [e] := rfl
end Emit

section Present
variable (s : State) (w : CommandWord)
@[simp] theorem present_cap : (s.present w).cap = s.cap := rfl
@[simp] theorem present_mode : (s.present w).mode = s.mode := rfl
@[simp] theorem present_size : (s.present w).size = s.size := rfl
@[simp] theorem present_start : (s.present w).start = s.start := rfl
@[simp] theorem present_length : (s.present w).length = s.length := rfl
@[simp] theorem present_brightness : (s.present w).brightness = s.brightness := rfl
@[simp] theorem present_pin : (s.present w).pin = s.pin := rfl
@[simp] theorem present_buf : (s.present w).buf = s.buf := rfl
@[simp] theorem present_commands : (s.present w).commands = w :: s.commands := rfl
@[simp] theorem present_responses : (s.present w).responses = s.responses := rfl
@[simp] theorem present_events : (s.present w).events = s.events := rfl
/-- Taking a presented word gives back the word and the state it was presented to. -/
@[simp] theorem takeCommand_present : (s.present w).takeCommand = some (w, s) := rfl
end Present

section MakeString
variable (s : State) (layout : Layout) (n : Word) (p : Byte)
@[simp] theorem makeString_cap : (s.makeString layout n p).cap = s.cap := rfl
@[simp] theorem makeString_mode : (s.makeString layout n p).mode = layout := rfl
@[simp] theorem makeString_size :
    (s.makeString layout n p).size = sizeRegister (bytesNeeded layout n) := rfl
@[simp] theorem makeString_start : (s.makeString layout n p).start = 0#32 := rfl
@[simp] theorem makeString_length : (s.makeString layout n p).length = n := rfl
@[simp] theorem makeString_brightness : (s.makeString layout n p).brightness = 255#8 := rfl
@[simp] theorem makeString_pin : (s.makeString layout n p).pin = p := rfl
@[simp] theorem makeString_buf :
    (s.makeString layout n p).buf = Memory.zeroed (sizeRegister (bytesNeeded layout n)).toNat := rfl
@[simp] theorem makeString_commands : (s.makeString layout n p).commands = s.commands := rfl
@[simp] theorem makeString_responses : (s.makeString layout n p).responses = s.responses := rfl
@[simp] theorem makeString_events : (s.makeString layout n p).events = s.events := rfl
end MakeString

section Reset
variable (cap : Nat)
@[simp] theorem resetWith_cap : (State.resetWith cap).cap = cap := rfl
@[simp] theorem resetWith_mode : (State.resetWith cap).mode = .rgb := rfl
@[simp] theorem resetWith_size : (State.resetWith cap).size = 0#32 := rfl
@[simp] theorem resetWith_start : (State.resetWith cap).start = 0#32 := rfl
@[simp] theorem resetWith_length : (State.resetWith cap).length = 0#32 := rfl
@[simp] theorem resetWith_brightness : (State.resetWith cap).brightness = 255#8 := rfl
@[simp] theorem resetWith_pin : (State.resetWith cap).pin = 0#8 := rfl
@[simp] theorem resetWith_buf : (State.resetWith cap).buf = [] := rfl
@[simp] theorem resetWith_commands : (State.resetWith cap).commands = [] := rfl
@[simp] theorem resetWith_responses : (State.resetWith cap).responses = [] := rfl
@[simp] theorem resetWith_events : (State.resetWith cap).events = [] := rfl
end Reset

end Sys2Proof.Machine
end

