-- ==== Sys2Proof/Laws/Ops.lean ====
section
/-! SUPPORT. What the shared operations over bytes can do, said once: a list of stores, a list of loads, and the two ways a
command completes with them. -/

namespace Sys2Proof.Machine

/-- The access check depends on `CAP` and `SIZE` alone. -/
theorem accessFault_congr {s t : State} (hc : t.cap = s.cap) (hz : t.size = s.size) (a : Nat) :
    t.accessFault a = s.accessFault a := by simp [State.accessFault, hc, hz]

/-- An access below `SIZE` and below `CAP` is not forbidden. -/
theorem accessFault_eq_none {s : State} {a : Nat} (hc : a < s.cap) (hz : a < s.size.toNat) : s.accessFault a = none := by
  simp [State.accessFault, Nat.not_le.2 hc, Nat.not_le.2 hz]

/-- A list of stores that succeeds writes exactly those bytes. -/
theorem storeBytes_eq {s t : State} {ws : List (Nat × Byte)} (h : s.storeBytes ws = .ok t) :
    t = { s with buf := Memory.writeAll s.buf ws } := by
  induction ws generalizing s with
  | nil => cases h; rfl
  | cons w ws ih =>
    obtain ⟨a, v⟩ := w
    simp only [State.storeBytes, State.storeByte] at h
    cases hf : s.accessFault a with
    | some f => rw [hf] at h; cases h
    | none => rw [hf] at h; exact ih h

/-- A list of stores to allowed addresses succeeds. -/
theorem storeBytes_ok {s : State} {ws : List (Nat × Byte)} (h : ∀ w ∈ ws, s.accessFault w.1 = none) :
    s.storeBytes ws = .ok { s with buf := Memory.writeAll s.buf ws } := by
  induction ws generalizing s with
  | nil => rfl
  | cons w ws ih =>
    obtain ⟨a, v⟩ := w
    simp only [State.storeBytes, State.storeByte, h (a, v) (by simp)]
    exact ih fun w' hw' => (accessFault_congr (s := s) rfl rfl w'.1).trans (h w' (by simp [hw']))

/-- A load that succeeds gives the byte the address holds. -/
theorem loadByte_eq {s : State} {a : Nat} {v : Byte} (h : s.loadByte a = .ok v) : Memory.read s.buf a = some v := by
  simp only [State.loadByte] at h
  cases hf : s.accessFault a with
  | some f => rw [hf] at h; cases h
  | none =>
    rw [hf] at h
    cases hr : Memory.read s.buf a with
    | none => rw [hr] at h; cases h
    | some w => rw [hr] at h; cases h; rfl

/-- A load of a byte that an allowed address holds succeeds. -/
theorem loadByte_ok {s : State} {a : Nat} {v : Byte} (hf : s.accessFault a = none)
    (hr : Memory.read s.buf a = some v) : s.loadByte a = .ok v := by simp [State.loadByte, hf, hr]

/-- A list of loads that succeeds gives the bytes the addresses hold, in order. -/
theorem loadBytes_eq {s : State} {as : List Nat} {vs : List Byte} (h : s.loadBytes as = .ok vs) :
    vs.map some = as.map (Memory.read s.buf) := by
  induction as generalizing vs with
  | nil => cases h; rfl
  | cons a as ih =>
    simp only [State.loadBytes] at h
    cases hv : s.loadByte a with
    | error f => rw [hv] at h; cases h
    | ok v =>
      rw [hv] at h
      cases hs : s.loadBytes as with
      | error f => rw [hs] at h; cases h
      | ok vs' => rw [hs] at h; cases h; simp [loadByte_eq hv, ih hs]

/-- A list of loads of bytes that allowed addresses hold succeeds. -/
theorem loadBytes_ok {s : State} {as : List Nat}
    (h : ∀ a ∈ as, s.accessFault a = none ∧ (Memory.read s.buf a).isSome) :
    ∃ vs, s.loadBytes as = .ok vs ∧ vs.map some = as.map (Memory.read s.buf) := by
  induction as with
  | nil => exact ⟨[], rfl, rfl⟩
  | cons a as ih =>
    obtain ⟨vs, hvs, hm⟩ := ih fun b hb => h b (by simp [hb])
    obtain ⟨hf, hr⟩ := h a (by simp)
    obtain ⟨v, hv⟩ := Option.isSome_iff_exists.1 hr
    exact ⟨v :: vs, by simp [State.loadBytes, loadByte_ok hf hv, hvs], by simp [hm, hv]⟩

/-- What storing and completing can do. -/
theorem storeThenDone_next {s t : State} {ws : List (Nat × Byte)} (h : s.storeThenDone ws = .next t) :
    t = State.respond { s with buf := Memory.writeAll s.buf ws } .ok 0#32 := by
  simp only [State.storeThenDone] at h
  cases hs : s.storeBytes ws with
  | error f => rw [hs] at h; cases h
  | ok u => rw [hs] at h; cases h; rw [storeBytes_eq hs]

/-- Storing to allowed addresses completes. -/
theorem storeThenDone_ok {s : State} {ws : List (Nat × Byte)} (h : ∀ w ∈ ws, s.accessFault w.1 = none) :
    s.storeThenDone ws = .next (State.respond { s with buf := Memory.writeAll s.buf ws } .ok 0#32) := by
  simp [State.storeThenDone, storeBytes_ok h, State.done]

/-- What loading and going on can do. -/
theorem loadThen_next {s t : State} {as : List Nat} {k : List Byte → Host.Outcome State Fault Refusal}
    (h : s.loadThen as k = .next t) : ∃ vs, vs.map some = as.map (Memory.read s.buf) ∧ k vs = .next t := by
  simp only [State.loadThen] at h
  cases hs : s.loadBytes as with
  | error f => rw [hs] at h; cases h
  | ok vs => rw [hs] at h; exact ⟨vs, loadBytes_eq hs, h⟩

/-- Loading bytes that allowed addresses hold goes on with them. -/
theorem loadThen_ok {s : State} {as : List Nat} (k : List Byte → Host.Outcome State Fault Refusal)
    (h : ∀ a ∈ as, s.accessFault a = none ∧ (Memory.read s.buf a).isSome) :
    ∃ vs, vs.map some = as.map (Memory.read s.buf) ∧ s.loadThen as k = k vs := by
  obtain ⟨vs, hvs, hm⟩ := loadBytes_ok h
  exact ⟨vs, hm, by simp [State.loadThen, hvs]⟩

/-- What loading one byte and going on can do. -/
theorem loadByteThen_next {s t : State} {a : Nat} {k : Byte → Host.Outcome State Fault Refusal}
    (h : s.loadByteThen a k = .next t) : ∃ v, Memory.read s.buf a = some v ∧ k v = .next t := by
  simp only [State.loadByteThen] at h
  cases hs : s.loadByte a with
  | error f => rw [hs] at h; cases h
  | ok v => rw [hs] at h; exact ⟨v, loadByte_eq hs, h⟩

/-- Loading one byte that an allowed address holds goes on with it. -/
theorem loadByteThen_ok {s : State} {a : Nat} {v : Byte} (k : Byte → Host.Outcome State Fault Refusal)
    (hf : s.accessFault a = none) (hr : Memory.read s.buf a = some v) : s.loadByteThen a k = k v := by
  simp [State.loadByteThen, loadByte_ok hf hr]

end Sys2Proof.Machine
end

