-- ==== Sys2Proof/Laws/Safety.lean ====
section
/-! SUPPORT. What the invariant R18 gives: live addresses are readable and writable, and every address of the logical window
is live. -/

namespace Sys2Proof.Machine

/-- The stride is 3 or 4 (R20). -/
theorem stride_cases (s : State) : s.stride = 3 ∨ s.stride = 4 := by
  cases h : s.mode <;> simp [State.stride, strideOf, h]

theorem stride_pos (s : State) : 0 < s.stride := by rcases stride_cases s with h | h <;> omega

/-- The stride of a state, by its layout (R20). -/
theorem stride_eq (s : State) : s.stride = if s.mode = .rgbW then 4 else 3 := by
  cases h : s.mode <;> simp [State.stride, strideOf, h]

/-- The reserved layout is the one number that names none (R11, R46). -/
theorem layoutOfCode_eq_none {code : BitVec 2} : layoutOfCode code = none ↔ code = 3#2 := by
  revert code; decide

/-- A number names the layout whose code it is (R11). -/
theorem layoutOfCode_eq_some {code : BitVec 2} {layout : Layout} :
    layoutOfCode code = some layout ↔ layoutCode layout = code := by
  revert code; cases layout <;> decide

/-- The bytes a string needs, by the number of its layout (R80). -/
theorem bytesNeeded_eq {code : BitVec 2} {layout : Layout} (h : layoutOfCode code = some layout) (n : Word) :
    bytesNeeded layout n = n.toNat * (if code = 1#2 then 4 else 3) := by
  rw [layoutOfCode_eq_some] at h
  subst h
  cases layout <;> rfl

/-- A live address may be accessed. -/
theorem State.Inv.access {s : State} (hi : s.Inv) {a : Nat} (h : a < s.size.toNat) : s.accessFault a = none :=
  accessFault_eq_none (lt_of_lt_of_le h hi.sizeFits) h

/-- Exactly the live addresses hold a value. -/
theorem State.Inv.isSome_iff {s : State} (hi : s.Inv) (a : Nat) :
    (Memory.read s.buf a).isSome ↔ a < s.size.toNat := by
  rw [read_isSome_iff, hi.liveBytes, List.mem_range]

/-- Writes to live addresses keep the set of addresses that hold a value. -/
theorem State.Inv.keys_writeAll {s : State} (hi : s.Inv) {ws : List (Nat × Byte)}
    (h : ∀ w ∈ ws, w.1 < s.size.toNat) : (Memory.writeAll s.buf ws).map Prod.fst = List.range s.size.toNat := by
  rw [keys_writeAll_of_mem _ _ (pairwise_of_keys hi.liveBytes), hi.liveBytes]
  intro w hw
  rw [hi.liveBytes, List.mem_range]
  exact h w hw

/-- Every address of the logical window is live (the consequence R18 states). -/
theorem State.Inv.window_live {s : State} (hi : s.Inv) {a : Nat} (h : s.inWindow a) : a < s.size.toNat :=
  lt_of_lt_of_le h.2 hi.windowFits

/-- Byte `c` of logical pixel `i` lies in the window. -/
theorem inWindow_pixel {s : State} {i c : Nat} (hi : i < s.length.toNat) (hc : c < s.stride) :
    s.inWindow ((s.start.toNat + i) * s.stride + c) := by
  constructor
  · nlinarith
  · have : (s.start.toNat + i + 1) * s.stride ≤ (s.start.toNat + s.length.toNat) * s.stride :=
      Nat.mul_le_mul_right _ (by omega)
    nlinarith

end Sys2Proof.Machine
end

