-- ==== Sys2Proof/Laws/Exec.lean ====
section
/-! SUPPORT. Everything a command can do when it completes, said once (`exec_effect`), and the addresses each pixel command
reads and writes. -/

namespace Sys2Proof.Machine

/-- The addresses of a pixel write: bytes 0 to 2 of the pixel (R91). -/
theorem mem_pixelWrites {s : State} {p : Nat} {rgb : Word} {w : Nat × Byte} (h : w ∈ s.pixelWrites p rgb) :
    ∃ c, c < 3 ∧ w.1 = p * s.stride + c := by
  have : w.1 = p * s.stride ∨ w.1 = p * s.stride + 1 ∨ w.1 = p * s.stride + 2 := by
    cases hm : s.mode <;>
      simp only [State.pixelWrites, State.pixelOffset, placeChannels, hm, List.zip_cons_cons, List.zip_nil_right,
        List.mem_cons, List.not_mem_nil, or_false] at h <;>
      rcases h with rfl | rfl | rfl <;> simp
  rcases this with h | h | h
  · exact ⟨0, by omega, by omega⟩
  · exact ⟨1, by omega, h⟩
  · exact ⟨2, by omega, h⟩

/-- The addresses FILL writes (R94). -/
theorem mem_fillWrites {s : State} {rgb : Word} {w : Nat × Byte} (h : w ∈ s.fillWrites rgb) :
    ∃ i c, i < s.length.toNat ∧ c < 3 ∧ w.1 = (s.start.toNat + i) * s.stride + c := by
  simp only [State.fillWrites, List.mem_flatMap, List.mem_range] at h
  obtain ⟨i, hi, hw⟩ := h
  obtain ⟨c, hc, he⟩ := mem_pixelWrites hw
  exact ⟨i, c, hi, hc, he⟩

/-- The bytes CLEAR writes (R95). -/
theorem mem_clearWrites {s : State} {w : Nat × Byte} :
    w ∈ s.clearWrites ↔ s.start.toNat * s.stride ≤ w.1 ∧ w.1 < s.length.toNat * s.stride ∧ w.2 = 0#8 := by
  obtain ⟨a, v⟩ := w
  simp only [State.clearWrites, List.mem_map, List.mem_range, Prod.mk.injEq]
  constructor
  · rintro ⟨t, ht, rfl, rfl⟩
    exact ⟨by omega, by omega, rfl⟩
  · rintro ⟨h1, h2, rfl⟩
    exact ⟨a - s.start.toNat * s.stride, by omega, by omega, rfl⟩

/-- The moves of ROTATE (R96). -/
theorem mem_rotateMoves {s : State} {k : Int} {m : Nat × Nat} :
    m ∈ s.rotateMoves k ↔ ∃ j c, j < s.length.toNat ∧ c < s.stride ∧ m = ((s.start.toNat + j) * s.stride + c,
      (s.start.toNat + (((j : Int) - k) % (s.length.toNat : Int)).toNat) * s.stride + c) := by
  simp only [State.rotateMoves, List.mem_flatMap, List.mem_range, List.mem_map, Int.sub_emod_emod]
  constructor
  · rintro ⟨j, hj, c, hc, rfl⟩; exact ⟨j, c, hj, hc, rfl⟩
  · rintro ⟨j, c, hj, hc, rfl⟩; exact ⟨j, hj, c, hc, rfl⟩

/-- A source pixel of ROTATE is a logical pixel. -/
theorem rotate_source_lt {n : Nat} {j : Nat} (k : Int) (hj : j < n) : (((j : Int) - k) % (n : Int)).toNat < n := by
  have h0 : (0 : Int) < n := by omega
  have h1 := Int.emod_nonneg ((j : Int) - k) (by omega : (n : Int) ≠ 0)
  have h2 := Int.emod_lt_of_pos ((j : Int) - k) h0
  omega

/-- A logical pixel is below `LENGTH`. -/
theorem logicalPixel_eq_some {s : State} {index : Word} {i : Nat} (h : s.logicalPixel index = some i) :
    0 ≤ index.toInt ∧ index.toInt < s.length.toNat ∧ i = index.toInt.toNat ∧ i < s.length.toNat := by
  simp only [State.logicalPixel] at h
  split_ifs at h with h'
  cases h
  exact ⟨h'.1, h'.2, rfl, by omega⟩

/-- An index in range names a logical pixel. -/
theorem logicalPixel_of_range {s : State} {index : Word} (h0 : 0 ≤ index.toInt) (h1 : index.toInt < s.length.toNat) :
    s.logicalPixel index = some index.toInt.toNat := by simp [State.logicalPixel, h0, h1]

/-- An index out of range names none. -/
theorem logicalPixel_of_not_range {s : State} {index : Word} (h : ¬(0 ≤ index.toInt ∧ index.toInt < s.length.toNat)) :
    s.logicalPixel index = none := by simp only [State.logicalPixel, if_neg h]

/-- A pixel command writes inside the window only, and to a white byte only zero or the value of another white byte. -/
def WindowWrite (s : State) (w : Nat × Byte) : Prop :=
  s.inWindow w.1 ∧ (s.mode = .rgbW → w.1 % 4 = 3 → w.2 = 0#8 ∨ ∃ b, b % 4 = 3 ∧ Memory.read s.buf b = some w.2)

/-- The commands that write the buffer inside the window. -/
def Instr.isPixelWrite : Instr → Bool
  | .setpix _ _ | .fill _ | .clear | .rotate _ => true
  | _ => false

/-- What a command can do when it completes. -/
inductive Effect (s : State) : Instr → State → Prop
  /-- It answers OK and changes nothing else. -/
  | answer (i : Instr) (d : Word) : Effect s i (s.respond .ok d)
  /-- It raises ILLEGAL: CREATE with the reserved layout. -/
  | illegal (n : Word) (mode : BitVec 2) (p : Byte) : layoutOfCode mode = none →
      Effect s (.create n mode p) (s.respond .illegal 0#32)
  /-- It raises ALLOC. -/
  | alloc (n : Word) (mode : BitVec 2) (p : Byte) (layout : Layout) : layoutOfCode mode = some layout →
      s.cap < bytesNeeded layout n → Effect s (.create n mode p) (s.respond .alloc 0#32)
  /-- It makes a string. -/
  | create (n : Word) (mode : BitVec 2) (p : Byte) (layout : Layout) : layoutOfCode mode = some layout →
      bytesNeeded layout n ≤ s.cap →
      Effect s (.create n mode p) (((s.makeString layout n p).emit (.pinWrite p false)).respond .ok 0#32)
  /-- It raises RANGE. -/
  | range (a b : Word) : s.size.toNat < (a.toNat + b.toNat) * s.stride →
      Effect s (.setrange a b) (s.respond .range 0#32)
  /-- It sets the window. -/
  | window (a b : Word) : (a.toNat + b.toNat) * s.stride ≤ s.size.toNat →
      Effect s (.setrange a b) (State.respond { s with start := a, length := b } .ok 0#32)
  /-- SETBR. -/
  | setbr (v : Word) (b : Byte) : Effect s (.setbr v) (State.respond { s with brightness := b } .ok 0#32)
  /-- SETBRP. -/
  | setbrp (v : Word) (b : Byte) : Effect s (.setbrp v) (State.respond { s with brightness := b } .ok 0#32)
  /-- It writes bytes of the window. -/
  | store (i : Instr) (ws : List (Nat × Byte)) : Instr.isPixelWrite i = true → (∀ w ∈ ws, WindowWrite s w) →
      Effect s i (State.respond { s with buf := Memory.writeAll s.buf ws } .ok 0#32)
  /-- SHOW. -/
  | shown (bytes : List Byte) : bytes.map some = (List.range s.size.toNat).map (Memory.read s.buf) →
      Effect s .showBuf ((s.emit (.transmit s.pin bytes)).respond .ok 0#32)

theorem stride_of_rgbW {s : State} (h : s.mode = .rgbW) : s.stride = 4 := by simp [State.stride, strideOf, h]

/-- A write to bytes 0 to 2 of a logical pixel is a window write. -/
theorem windowWrite_pixel {s : State} {i c : Nat} {w : Nat × Byte} (hi : i < s.length.toNat) (hc : c < 3)
    (hw : w.1 = (s.start.toNat + i) * s.stride + c) : WindowWrite s w := by
  refine ⟨hw ▸ inWindow_pixel hi (by rcases stride_cases s with h | h <;> omega), fun hm h3 => ?_⟩
  rw [stride_of_rgbW hm] at hw
  omega

/-- The bytes ROTATE writes. -/
theorem mem_rotate_zip {s : State} {k : Int} {old : List Byte}
    (hold : old.map some = ((s.rotateMoves k).map Prod.snd).map (Memory.read s.buf)) {w : Nat × Byte} :
    w ∈ ((s.rotateMoves k).map Prod.fst).zip old ↔ ∃ m ∈ s.rotateMoves k, w.1 = m.1 ∧ Memory.read s.buf m.2 = some w.2 := by
  have key : ∀ (ms : List (Nat × Nat)) (old : List Byte), old.map some = (ms.map Prod.snd).map (Memory.read s.buf) →
      (w ∈ (ms.map Prod.fst).zip old ↔ ∃ m ∈ ms, w.1 = m.1 ∧ Memory.read s.buf m.2 = some w.2) := by
    intro ms
    induction ms with
    | nil => intro old _; simp
    | cons m ms ih =>
      intro old h
      cases old with
      | nil => simp at h
      | cons v old =>
        simp only [List.map_cons, List.cons.injEq] at h
        simp only [List.map_cons, List.zip_cons_cons, List.mem_cons, ih old h.2, exists_eq_or_imp]
        refine or_congr ⟨?_, ?_⟩ Iff.rfl
        · rintro rfl; exact ⟨rfl, h.1.symm⟩
        · rintro ⟨h1, h2⟩
          rw [← h.1] at h2
          exact Prod.ext h1 (Option.some.inj h2).symm
  exact key _ _ hold

/-- A byte ROTATE writes is a window write: white bytes come from white bytes. -/
theorem windowWrite_rotate {s : State} {k : Int} {m : Nat × Nat} {w : Nat × Byte} (hm : m ∈ s.rotateMoves k)
    (h1 : w.1 = m.1) (h2 : Memory.read s.buf m.2 = some w.2) : WindowWrite s w := by
  obtain ⟨j, c, hj, hc, rfl⟩ := mem_rotateMoves.1 hm
  refine ⟨h1 ▸ inWindow_pixel hj hc, fun hw h3 => .inr ⟨_, ?_, h2⟩⟩
  rw [stride_of_rgbW hw] at h1 hc ⊢
  simp only at h1 ⊢
  omega

/-- A byte CLEAR writes is a window write. -/
theorem windowWrite_clear {s : State} {w : Nat × Byte} (h : w ∈ s.clearWrites) : WindowWrite s w := by
  obtain ⟨h1, h2, h3⟩ := mem_clearWrites.1 h
  exact ⟨⟨h1, lt_of_lt_of_le h2 (Nat.mul_le_mul_right _ (Nat.le_add_left _ _))⟩, fun _ _ => .inl h3⟩

/-- Everything a command can do when it completes. -/
theorem exec_effect {i : Instr} {s t : State} (h : exec i s = .next t) : Effect s i t := by
  cases i with
  | pack r g b => cases h; exact .answer _ _
  | unpr p => cases h; exact .answer _ _
  | unpg p => cases h; exact .answer _ _
  | unpb p => cases h; exact .answer _ _
  | hsl a b c => cases h; exact .answer _ _
  | create n mode p =>
    simp only [exec, execCreate] at h
    cases hl : layoutOfCode mode with
    | none => rw [hl] at h; cases h; exact .illegal _ _ _ hl
    | some layout =>
      rw [hl] at h
      by_cases ha : s.cap < bytesNeeded layout n
      · simp only [if_pos ha] at h
        cases h; exact .alloc _ _ _ _ hl ha
      · simp only [if_neg ha] at h
        cases h; exact .create _ _ _ _ hl (by omega)
  | setrange a b =>
    simp only [exec, execSetrange] at h
    by_cases hr : s.size.toNat < (a.toNat + b.toNat) * s.stride
    · rw [if_pos hr] at h
      cases h; exact .range _ _ hr
    · rw [if_neg hr] at h
      cases h; exact .window _ _ (by omega)
  | setbr v => cases h; exact .setbr _ _
  | setbrp v => cases h; exact .setbrp _ _
  | setpix index rgb =>
    simp only [exec, execSetpix] at h
    cases hp : s.logicalPixel index with
    | none => rw [hp] at h; cases h; exact .answer _ _
    | some i =>
      rw [hp] at h
      rw [storeThenDone_next h]
      refine .store _ _ rfl fun w hw => ?_
      obtain ⟨c, hc, he⟩ := mem_pixelWrites hw
      exact windowWrite_pixel (logicalPixel_eq_some hp).2.2.2 hc (by rw [he, Nat.add_comm i])
  | getpix index =>
    simp only [exec, execGetpix] at h
    cases hp : s.logicalPixel index with
    | none => rw [hp] at h; cases h; exact .answer _ _
    | some i =>
      rw [hp] at h
      obtain ⟨_, _, h⟩ := loadByteThen_next h
      obtain ⟨_, _, h⟩ := loadByteThen_next h
      obtain ⟨_, _, h⟩ := loadByteThen_next h
      cases h; exact .answer _ _
  | fill rgb =>
    rw [storeThenDone_next h]
    refine .store _ _ rfl fun w hw => ?_
    obtain ⟨i, c, hi, hc, he⟩ := mem_fillWrites hw
    exact windowWrite_pixel hi hc he
  | clear =>
    rw [storeThenDone_next h]
    exact .store _ _ rfl fun w hw => windowWrite_clear hw
  | rotate offset =>
    simp only [exec, execRotate] at h
    obtain ⟨old, hold, h⟩ := loadThen_next h
    rw [storeThenDone_next h]
    refine .store _ _ rfl fun w hw => ?_
    obtain ⟨m, hm, h1, h2⟩ := (mem_rotate_zip hold).1 hw
    exact windowWrite_rotate hm h1 h2
  | showBuf =>
    simp only [exec, execShow] at h
    obtain ⟨bytes, hb, h⟩ := loadThen_next h
    cases h; exact .shown _ hb

/-- Everything a step can do when it completes: nothing to take; a command executed; or a word that spells no command. -/
theorem step_effect {s t : State} (h : step s = .next t) :
    (s.commands = [] ∧ t = s) ∨ ∃ w ws, s.commands = w :: ws ∧
      ((∃ i, decode w = .ok i ∧ Effect { s with commands := ws } i t) ∨
       ((∃ e, decode w = .error e) ∧ t = State.respond { s with commands := ws } .illegal 0#32)) := by
  cases hc : s.commands with
  | nil =>
    simp only [step, State.takeCommand, hc] at h
    cases h; exact .inl ⟨rfl, rfl⟩
  | cons w ws =>
    refine .inr ⟨w, ws, rfl, ?_⟩
    simp only [step, State.takeCommand, hc] at h
    cases hd : decode w with
    | ok i => rw [hd] at h; exact .inl ⟨i, rfl, exec_effect h⟩
    | error e =>
      rw [hd] at h
      refine .inr ⟨⟨e, rfl⟩, ?_⟩
      cases e <;> (cases h; rfl)

end Sys2Proof.Machine
end

