-- ==== Sys2Proof/Laws/Commands.lean ====
section
/-! SUPPORT. What each pixel command answers in a state with the invariant R18, as the list of bytes it writes, and the
arithmetic of pixel addresses and packed bytes its spec rests on. -/

namespace Sys2Proof.Machine

/-- A byte count below 2^32 is what `SIZE` holds. -/
theorem sizeRegister_toNat {n : Nat} (h : n < 2 ^ 32) : (sizeRegister n).toNat = n := by
  simp only [sizeRegister, if_pos h, BitVec.toNat_ofNat]; omega

theorem unpackRed_eq (p : Word) : unpackRed p = p.extractLsb' 16 8 := by
  apply BitVec.eq_of_toNat_eq; simp [unpackRed, BitVec.extractLsb'_toNat, Nat.shiftRight_eq_div_pow]

theorem unpackGreen_eq (p : Word) : unpackGreen p = p.extractLsb' 8 8 := by
  apply BitVec.eq_of_toNat_eq; simp [unpackGreen, BitVec.extractLsb'_toNat, Nat.shiftRight_eq_div_pow]

theorem unpackBlue_eq (p : Word) : unpackBlue p = p.extractLsb' 0 8 := by
  apply BitVec.eq_of_toNat_eq; simp [unpackBlue, BitVec.extractLsb'_toNat]

/-- A byte address names one pixel and one byte of it. -/
theorem pixelAddress_inj {st p q c d : Nat} (hc : c < st) (hd : d < st) (h : p * st + c = q * st + d) :
    p = q ∧ c = d := by
  have h1 : (p * st + c) / st = p := by
    rw [Nat.mul_comm, Nat.mul_add_div (by omega), Nat.div_eq_of_lt hc, Nat.add_zero]
  have h2 : (q * st + d) / st = q := by
    rw [Nat.mul_comm, Nat.mul_add_div (by omega), Nat.div_eq_of_lt hd, Nat.add_zero]
  have : p = q := by rw [← h1, h, h2]
  subst this; omega

/-- Every address of the window is a byte of a logical pixel. -/
theorem inWindow_decompose {s : State} {a : Nat} (h : s.inWindow a) :
    ∃ j c, j < s.length.toNat ∧ c < s.stride ∧ a = (s.start.toNat + j) * s.stride + c := by
  have hp := stride_pos s
  have h1 : s.start.toNat ≤ a / s.stride := (Nat.le_div_iff_mul_le hp).2 h.1
  have h2 : a / s.stride < s.start.toNat + s.length.toNat := (Nat.div_lt_iff_lt_mul hp).2 h.2
  refine ⟨a / s.stride - s.start.toNat, a % s.stride, by omega, Nat.mod_lt _ hp, ?_⟩
  rw [show s.start.toNat + (a / s.stride - s.start.toNat) = a / s.stride by omega, Nat.mul_comm]
  exact (Nat.div_add_mod _ _).symm

/-- Every byte of a logical pixel is live. -/
theorem State.Inv.pixel_live {s : State} (hi : s.Inv) {i c : Nat} (h : i < s.length.toNat) (hc : c < s.stride) :
    (i + s.start.toNat) * s.stride + c < s.size.toNat := by
  rw [Nat.add_comm i]; exact hi.window_live (inWindow_pixel h hc)

/-- The invariant survives a new buffer over the same addresses, and a response. -/
theorem State.Inv.newBuffer {s : State} (hi : s.Inv) {m : Memory} (h : m.map Prod.fst = List.range s.size.toNat)
    (st : Status) (d : Word) : (State.respond { s with buf := m } st d).Inv :=
  ⟨hi.sizeFits, hi.sizeMultiple, hi.windowFits, hi.modeLegal, h⟩

/-- The three bytes of a pixel write, in the order of the layout (R26, R91). -/
theorem pixelWrites_eq (s : State) (p : Nat) (rgb : Word) {r g b : Byte}
    (hr : r = scaleChannel s.brightness (rgb.extractLsb' 16 8)) (hg : g = scaleChannel s.brightness (rgb.extractLsb' 8 8))
    (hb : b = scaleChannel s.brightness (rgb.extractLsb' 0 8)) :
    s.pixelWrites p rgb = [(s.pixelOffset p, if s.mode = .rgbAlt then r else g),
      (s.pixelOffset p + 1, if s.mode = .rgbAlt then g else r), (s.pixelOffset p + 2, b)] := by
  subst hr hg hb
  simp only [State.pixelWrites, ← unpackRed_eq, ← unpackGreen_eq, ← unpackBlue_eq]
  cases s.mode <;> simp [placeChannels]

/-- Reading after three adjacent bytes are written. -/
theorem read_threeBytes (m : Memory) (o : Nat) (x y z : Byte) {m' : Memory}
    (h : m' = Memory.writeAll m [(o, x), (o + 1, y), (o + 2, z)]) :
    Memory.read m' o = some x ∧ Memory.read m' (o + 1) = some y ∧ Memory.read m' (o + 2) = some z ∧
      ∀ a, (a < o ∨ o + 3 ≤ a) → Memory.read m' a = Memory.read m a := by
  subst h
  refine ⟨?_, ?_, ?_, fun a ha => ?_⟩
  · rw [writeAll_cons, writeAll_cons, writeAll_cons, writeAll_nil, read_write_other _ _ (by simp),
      read_write_other _ _ (by simp), read_write_same]
  · rw [writeAll_cons, writeAll_cons, writeAll_cons, writeAll_nil, read_write_other _ _ (by simp), read_write_same]
  · rw [writeAll_cons, writeAll_cons, writeAll_cons, writeAll_nil, read_write_same]
  · refine read_writeAll_other _ _ fun w hw => ?_
    simp only [List.mem_cons, List.not_mem_nil, or_false] at hw
    rcases hw with rfl | rfl | rfl <;> dsimp only <;> omega

/-- A byte after a list of writes is as before, or is the value of one of the writes to it. -/
theorem read_writeAll_cases (m : Memory) (ws : List (Nat × Byte)) (a : Nat) :
    Memory.read (Memory.writeAll m ws) a = Memory.read m a ∨
      ∃ w ∈ ws, w.1 = a ∧ Memory.read (Memory.writeAll m ws) a = some w.2 := by
  induction ws generalizing m with
  | nil => exact .inl rfl
  | cons w ws ih =>
    rcases ih (Memory.write m w.1 w.2) with h | ⟨w', h1, h2, h3⟩
    · by_cases e : a = w.1
      · subst e; exact .inr ⟨w, by simp, rfl, by rw [writeAll_cons, h, read_write_same]⟩
      · exact .inl (by rw [writeAll_cons, h, read_write_other _ _ e])
    · exact .inr ⟨w', by simp [h1], h2, h3⟩

/-- SETPIX with an index in range writes the bytes of its pixel. -/
theorem exec_setpix {s : State} (hi : s.Inv) {index rgb : Word} {i : Nat} (h : s.logicalPixel index = some i) :
    exec (.setpix index rgb) s = .next (State.respond
      { s with buf := Memory.writeAll s.buf (s.pixelWrites (i + s.start.toNat) rgb) } .ok 0#32) := by
  simp only [exec, execSetpix, h]
  refine storeThenDone_ok fun w hw => ?_
  obtain ⟨c, hc, he⟩ := mem_pixelWrites hw
  rw [he]
  exact hi.access (hi.pixel_live (logicalPixel_eq_some h).2.2.2 (by rcases stride_cases s with h | h <;> omega))

/-- GETPIX with an index in range answers the three bytes of its pixel. -/
theorem exec_getpix {s : State} (hi : s.Inv) {index : Word} {i o : Nat} (h : s.logicalPixel index = some i)
    (ho : o = s.pixelOffset (i + s.start.toNat)) :
    ∃ b0 b1 b2 : Byte, s.byteAt o = some b0 ∧ s.byteAt (o + 1) = some b1 ∧ s.byteAt (o + 2) = some b2 ∧
      exec (.getpix index) s = .next (s.respond .ok (packStored s.mode b0 b1 b2)) := by
  have hlt : ∀ c, c < 3 → o + c < s.size.toNat := fun c hc => by
    rw [ho]
    exact hi.pixel_live (logicalPixel_eq_some h).2.2.2 (by rcases stride_cases s with h | h <;> omega)
  have l0 := hlt 0 (by omega)
  rw [Nat.add_zero] at l0
  obtain ⟨b0, h0⟩ := Option.isSome_iff_exists.1 ((hi.isSome_iff _).2 l0)
  obtain ⟨b1, h1⟩ := Option.isSome_iff_exists.1 ((hi.isSome_iff _).2 (hlt 1 (by omega)))
  obtain ⟨b2, h2⟩ := Option.isSome_iff_exists.1 ((hi.isSome_iff _).2 (hlt 2 (by omega)))
  refine ⟨b0, b1, b2, h0, h1, h2, ?_⟩
  simp only [exec, execGetpix, h, ← ho]
  rw [loadByteThen_ok _ (hi.access l0) h0, loadByteThen_ok _ (hi.access (hlt 1 (by omega))) h1,
    loadByteThen_ok _ (hi.access (hlt 2 (by omega))) h2]
  rfl

/-- FILL writes the bytes of every pixel of the window. -/
theorem exec_fill {s : State} (hi : s.Inv) (rgb : Word) : exec (.fill rgb) s =
    .next (State.respond { s with buf := Memory.writeAll s.buf (s.fillWrites rgb) } .ok 0#32) := by
  simp only [exec, execFill]
  refine storeThenDone_ok fun w hw => ?_
  obtain ⟨i, c, hi', hc, he⟩ := mem_fillWrites hw
  rw [he]
  exact hi.access (hi.window_live (inWindow_pixel hi' (by rcases stride_cases s with h | h <;> omega)))

/-- CLEAR writes zero at its literal range. -/
theorem exec_clear {s : State} (hi : s.Inv) : exec .clear s =
    .next (State.respond { s with buf := Memory.writeAll s.buf s.clearWrites } .ok 0#32) := by
  simp only [exec, execClear]
  exact storeThenDone_ok fun w hw => hi.access (hi.window_live (windowWrite_clear hw).1)

/-- ROTATE writes, at the target of each of its moves, the byte the source held. -/
theorem exec_rotate {s : State} (hi : s.Inv) (k : Word) : ∃ ws, exec (.rotate k) s =
    .next (State.respond { s with buf := Memory.writeAll s.buf ws } .ok 0#32) ∧
    ∀ w, w ∈ ws ↔ ∃ m ∈ s.rotateMoves k.toInt, w.1 = m.1 ∧ Memory.read s.buf m.2 = some w.2 := by
  obtain ⟨old, hold, he⟩ := loadThen_ok (s := s) (as := (s.rotateMoves k.toInt).map Prod.snd)
    (fun old => s.storeThenDone (((s.rotateMoves k.toInt).map Prod.fst).zip old)) (by
      intro a ha
      obtain ⟨m, hm, rfl⟩ := List.mem_map.1 ha
      obtain ⟨j, c, hj, hc, rfl⟩ := mem_rotateMoves.1 hm
      have := hi.window_live (inWindow_pixel (s := s) (rotate_source_lt k.toInt hj) hc)
      exact ⟨hi.access this, (hi.isSome_iff _).2 this⟩)
  refine ⟨((s.rotateMoves k.toInt).map Prod.fst).zip old, ?_, fun w => mem_rotate_zip hold⟩
  simp only [exec, execRotate]
  rw [he]
  refine storeThenDone_ok fun w hw => ?_
  obtain ⟨m, hm, h1, h2⟩ := (mem_rotate_zip hold).1 hw
  exact hi.access (hi.window_live (windowWrite_rotate hm h1 h2).1)

end Sys2Proof.Machine
end

