-- ==== Sys2Proof/Laws/Encoding.lean ====
section
/-! SUPPORT. The fields of a command word (spec/30_encoding.md R40): taking a word apart and putting it together are inverse. -/

namespace Sys2Proof

/-- Concatenation as arithmetic. -/
theorem toNat_concat {n k : Nat} (x : BitVec n) (y : BitVec k) : (x ++ y).toNat = x.toNat * 2 ^ k + y.toNat := by
  rw [BitVec.toNat_append, ← Nat.shiftLeft_add_eq_or_of_lt y.isLt, Nat.shiftLeft_eq]

/-- The number a command word stands for. -/
theorem commandWord_toNat (op : Byte) (a d : Word) :
    (commandWord op a d).toNat = op.toNat * 2 ^ 64 + a.toNat * 2 ^ 32 + d.toNat := by
  have h := toNat_concat (op ++ a) d
  rw [toNat_concat op a] at h
  rw [show (commandWord op a d).toNat = (op ++ a ++ d).toNat from rfl, h]
  omega

@[simp] theorem opField_commandWord (op : Byte) (a d : Word) : opField (commandWord op a d) = op := by
  apply BitVec.eq_of_toNat_eq
  simp only [opField, BitVec.extractLsb'_toNat, commandWord_toNat, Nat.shiftRight_eq_div_pow]
  have := op.isLt; have := a.isLt; have := d.isLt
  omega

@[simp] theorem aField_commandWord (op : Byte) (a d : Word) : aField (commandWord op a d) = a := by
  apply BitVec.eq_of_toNat_eq
  simp only [aField, BitVec.extractLsb'_toNat, commandWord_toNat, Nat.shiftRight_eq_div_pow]
  have := op.isLt; have := a.isLt; have := d.isLt
  omega

@[simp] theorem dField_commandWord (op : Byte) (a d : Word) : dField (commandWord op a d) = d := by
  apply BitVec.eq_of_toNat_eq
  simp only [dField, BitVec.extractLsb'_toNat, commandWord_toNat, Nat.shiftRight_eq_div_pow]
  have := op.isLt; have := a.isLt; have := d.isLt
  omega

/-- Every word is the word of its three fields. -/
theorem commandWord_fields (w : CommandWord) : commandWord (opField w) (aField w) (dField w) = w := by
  apply BitVec.eq_of_toNat_eq
  rw [commandWord_toNat]
  simp only [opField, aField, dField, BitVec.extractLsb'_toNat, Nat.shiftRight_eq_div_pow]
  have := w.isLt
  omega

/-- Decoding a word put together from its fields. -/
theorem decode_commandWord (op : Byte) (a d : Word) : decode (commandWord op a d) = decodeFields op a d := by
  rw [decode, opField_commandWord, aField_commandWord, dField_commandWord]

/-- The bits of a word under a mask are the bits of its fields under the mask's fields. -/
theorem commandWord_and (op op' : Byte) (a a' d d' : Word) :
    commandWord op a d &&& commandWord op' a' d' = commandWord (op &&& op') (a &&& a') (d &&& d') := by
  apply BitVec.eq_of_getLsbD_eq
  intro i hi
  rw [BitVec.getLsbD_and]
  have key : ∀ (p : Byte) (x y : Word), (commandWord p x y).getLsbD i =
      if i < 32 then y.getLsbD i else if i - 32 < 32 then x.getLsbD (i - 32) else p.getLsbD (i - 32 - 32) := by
    intro p x y
    rw [show (commandWord p x y).getLsbD i = (p ++ x ++ y).getLsbD i from rfl, BitVec.getLsbD_append,
      BitVec.getLsbD_append]
  rw [key, key, key]
  split_ifs <;> simp

/-- Two words are equal exactly when their fields are. -/
theorem commandWord_inj {op op' : Byte} {a a' d d' : Word} :
    commandWord op a d = commandWord op' a' d' ↔ op = op' ∧ a = a' ∧ d = d' := by
  constructor
  · intro h
    exact ⟨by rw [← opField_commandWord op a d, h, opField_commandWord],
      by rw [← aField_commandWord op a d, h, aField_commandWord],
      by rw [← dField_commandWord op a d, h, dField_commandWord]⟩
  · rintro ⟨rfl, rfl, rfl⟩; rfl

@[simp] theorem hiHalf_append (h l : Half) : hiHalf (h ++ l) = h := by
  apply BitVec.eq_of_toNat_eq
  rw [hiHalf, BitVec.extractLsb'_toNat, show (h ++ l : Word).toNat = (h ++ l).toNat from rfl, toNat_concat,
    Nat.shiftRight_eq_div_pow]
  have := h.isLt; have := l.isLt
  omega

@[simp] theorem loHalf_append (h l : Half) : loHalf (h ++ l) = l := by
  apply BitVec.eq_of_toNat_eq
  rw [loHalf, BitVec.extractLsb'_toNat, show (h ++ l : Word).toNat = (h ++ l).toNat from rfl, toNat_concat,
    Nat.shiftRight_eq_div_pow]
  have := h.isLt; have := l.isLt
  omega

/-- The two halves of an operand field put together. -/
theorem halves_append (d : Word) : (hiHalf d ++ loHalf d : Word) = d := by
  apply BitVec.eq_of_toNat_eq
  rw [show (hiHalf d ++ loHalf d : Word).toNat = (hiHalf d ++ loHalf d).toNat from rfl, toNat_concat]
  simp only [hiHalf, loHalf, BitVec.extractLsb'_toNat, Nat.shiftRight_eq_div_pow]
  have := d.isLt
  omega

/-- The number CREATE's second operand field stands for. -/
theorem createField_toNat (mode : BitVec 2) (pin : Byte) :
    (0#16 ++ pin ++ 0#6 ++ mode : Word).toNat = pin.toNat * 256 + mode.toNat := by
  rw [show (0#16 ++ pin ++ 0#6 ++ mode : Word).toNat = (0#16 ++ pin ++ 0#6 ++ mode).toNat from rfl, toNat_concat,
    toNat_concat, toNat_concat]
  simp
  omega

@[simp] theorem createField_mode (mode : BitVec 2) (pin : Byte) :
    (0#16 ++ pin ++ 0#6 ++ mode : Word).extractLsb' 0 2 = mode := by
  apply BitVec.eq_of_toNat_eq
  rw [BitVec.extractLsb'_toNat, createField_toNat, Nat.shiftRight_eq_div_pow]
  have := mode.isLt
  omega

@[simp] theorem createField_pin (mode : BitVec 2) (pin : Byte) :
    (0#16 ++ pin ++ 0#6 ++ mode : Word).extractLsb' 8 8 = pin := by
  apply BitVec.eq_of_toNat_eq
  rw [BitVec.extractLsb'_toNat, createField_toNat, Nat.shiftRight_eq_div_pow]
  have := mode.isLt; have := pin.isLt
  omega

end Sys2Proof
end

