-- ==== Sys2Proof/Laws/PerInstr.lean ====
section
/-! SUPPORT. The family of statements about each command as syntax: the fields of its word (spec/30_encoding.md R40, R44). -/

namespace Sys2Proof.Laws.WordFields

/-- The word of a command holds its opcode in bits 71:64 and its operand fields in bits 63:32 and 31:0. -/
def Statement (i : Instr) : Prop :=
  opField (encode i) = i.opcode ∧ aField (encode i) = i.operands.1 ∧ dField (encode i) = i.operands.2

/-- The common proof: the fields of a word put together from fields. -/
theorem of_encode (i : Instr) : Statement i :=
  ⟨opField_commandWord _ _ _, aField_commandWord _ _ _, dField_commandWord _ _ _⟩

theorem pack (red : Word) (green blue : Half) : Statement (.pack red green blue) := of_encode _
theorem unpr (packed : Word) : Statement (.unpr packed) := of_encode _
theorem unpg (packed : Word) : Statement (.unpg packed) := of_encode _
theorem unpb (packed : Word) : Statement (.unpb packed) := of_encode _
theorem hsl (hue : Word) (sat lum : Half) : Statement (.hsl hue sat lum) := of_encode _
theorem create (pixelCount : Word) (mode : BitVec 2) (pin : Byte) : Statement (.create pixelCount mode pin) := of_encode _
theorem setrange (start length : Word) : Statement (.setrange start length) := of_encode _
theorem setbr (value : Word) : Statement (.setbr value) := of_encode _
theorem setbrp (percent : Word) : Statement (.setbrp percent) := of_encode _
theorem setpix (index rgb : Word) : Statement (.setpix index rgb) := of_encode _
theorem getpix (index : Word) : Statement (.getpix index) := of_encode _
theorem fill (rgb : Word) : Statement (.fill rgb) := of_encode _
theorem clear : Statement .clear := of_encode _
theorem rotate (offset : Word) : Statement (.rotate offset) := of_encode _
theorem showBuf : Statement .showBuf := of_encode _

end Sys2Proof.Laws.WordFields
end

