-- ==== Sys2Proof/Tests/Slice0.lean ====
section
/-! SUPPORT. The model's own tests. Every expected value is copied from spec/95_test_vectors.md (V1 to V5, P1 to P6) or worked
out by hand from the rule named; then one witness for the hypotheses of each statement of Certificates/Slice0. -/

namespace Sys2Proof.Tests

open Sys2Proof.Machine

/-- The next state of an outcome, if it is one. -/
def nextOf (o : Host.Outcome State Fault Refusal) : Option State :=
  match o with
  | .next s => some s
  | _ => none

/-- A state that holds a string whose live bytes are `bytes`, with `CAP = 16` and pin 7. -/
def held (mode : Layout) (start length : Word) (brightness : Byte) (bytes : List Byte) : State :=
  { State.reset with mode := mode, size := BitVec.ofNat 32 bytes.length, start := start, length := length,
                     brightness := brightness, pin := 7#8, buf := (List.range bytes.length).zip bytes }

/-- An outcome with a next state. -/
theorem exists_next {α : Type} {o : Host.Outcome State Fault Refusal} {f : State → α} {v : α}
    (h : (nextOf o).map f = some v) : ∃ t, o = .next t ∧ f t = v := by
  cases o with
  | next t => exact ⟨t, rfl, Option.some.inj h⟩
  | fault f => cases h
  | refused r => cases h

/-- The live bytes, the status and the data of the last response. -/
def bytesAndResponse (s : State) : List Byte × Option Response := (s.buf.map Prod.snd, s.responses.getLast?)

/-- The bytes and the response after one command. -/
def after (i : Instr) (s : State) : Option (List Byte × Option Response) := (nextOf (exec i s)).map bytesAndResponse

/-- The registers MODE, SIZE, START, LENGTH, BRIGHTNESS, PIN, the response and the events. -/
structure Regs where
  mode : Layout
  words : List Word
  bytes : List Byte
  response : Option Response
  events : List Event
  deriving DecidableEq, Repr

/-- The registers, the response and the events after one command. -/
def regsAfter (i : Instr) (s : State) : Option Regs :=
  (nextOf (exec i s)).map fun t =>
    ⟨t.mode, [t.size, t.start, t.length], [t.brightness, t.pin], t.responses.getLast?, t.events⟩

/-- The response of the step that takes one presented word from reset. -/
def stepResponse (w : CommandWord) : Option (Option Response) :=
  (nextOf (step (State.reset.present w))).map fun t => t.responses.getLast?

/-! ## WellFormed -/

/-- The one check refuses the reserved layout (R46). -/
theorem test_wf_refuses_reserved_layout : Instr.wf (.create 2#32 3#2 0#8) = false := by decide

/-- The three legal layouts pass. -/
theorem test_wf_accepts_layouts : Instr.wf (.create 2#32 0#2 0#8) = true ∧ Instr.wf (.create 2#32 1#2 0#8) = true ∧
    Instr.wf (.create 2#32 2#2 0#8) = true := by decide

/-! ## Decoding: a word for every constructor, written out from R40, R41, R44 (words of spec/95) -/

theorem test_decode_pack : decode 0x01000001FF010002AB#72 = .ok (.pack 0x1FF#32 0x100#16 0x2AB#16) := by decide
theorem test_decode_unpr : decode 0x02DEADBEEF00123456#72 = .ok (.unpr 0x123456#32) := by decide
theorem test_decode_unpg : decode 0x0300000000FF123456#72 = .ok (.unpg 0xFF123456#32) := by decide
theorem test_decode_unpb : decode 0x040000000000000100#72 = .ok (.unpb 0x100#32) := by decide
theorem test_decode_hsl : decode 0x0800000000FFFB0032#72 = .ok (.hsl 0#32 0xFFFB#16 50#16) := by decide
theorem test_decode_create : decode 0x100000000400000701#72 = .ok (.create 4#32 1#2 7#8) := by decide
theorem test_decode_create_ignored_bits : decode 0x1000000005FFFF00FC#72 = .ok (.create 5#32 0#2 0#8) := by decide
theorem test_decode_setrange : decode 0x11FFFFFFFF00000001#72 = .ok (.setrange 0xFFFFFFFF#32 1#32) := by decide
theorem test_decode_setbr : decode 0x1200000000000001FF#72 = .ok (.setbr 0x1FF#32) := by decide
theorem test_decode_setbrp : decode 0x130000000000000032#72 = .ok (.setbrp 50#32) := by decide
theorem test_decode_setpix : decode 0x14FFFFFFFF00ABCDEF#72 = .ok (.setpix 0xFFFFFFFF#32 0xABCDEF#32) := by decide
theorem test_decode_getpix : decode 0x150000000200000000#72 = .ok (.getpix 2#32) := by decide
theorem test_decode_fill : decode 0x160000000000FF8001#72 = .ok (.fill 0xFF8001#32) := by decide
theorem test_decode_clear : decode 0x170000000000000000#72 = .ok .clear := by decide
theorem test_decode_rotate : decode 0x18FFFFFFF900000000#72 = .ok (.rotate (BitVec.ofInt 32 (-7))) := by decide
theorem test_decode_show : decode 0x190000000000000000#72 = .ok .showBuf := by decide

/-- Reserved words (V4). -/
theorem test_decode_reserved : decode 0x000000000000000000#72 = .error (.reservedOpcode 0#8) ∧
    decode 0x090000000000000000#72 = .error (.reservedOpcode 9#8) ∧
    decode 0x1A0000000000000000#72 = .error (.reservedOpcode 0x1A#8) ∧
    decode 0x10FFFFFFFF00000003#72 = .error .reservedLayout := by decide

/-- The encoder writes the words of V4, P3 and P5. -/
theorem test_encode : encode (.create 5#32 2#2 255#8) = 0x10000000050000FF02#72 ∧
    encode (.setrange 1#32 3#32) = 0x110000000100000003#72 ∧
    encode (.rotate (BitVec.ofInt 32 (-7))) = 0x18FFFFFFF900000000#72 := by decide

/-- No two rows of the opcode map overlap. -/
theorem test_opcode_rows_disjoint : opcodeTable.Pairwise fun x y => x.2 ≠ y.2 := by decide

/-! ## One step per command -/

/-- V1. -/
theorem test_pack_wraps : after (.pack 0x1FF#32 0x100#16 0x2AB#16) .reset = some ([], some ⟨.ok, 0x00FF00AB#32⟩) := by decide
theorem test_pack_all_ones : after (.pack 0xFFFFFFFF#32 0xFFFF#16 0x8000#16) .reset =
    some ([], some ⟨.ok, 0x00FFFF00#32⟩) := by decide
theorem test_unpr : after (.unpr 0xFF123456#32) .reset = some ([], some ⟨.ok, 0x12#32⟩) := by decide
theorem test_unpg : after (.unpg 0xFF123456#32) .reset = some ([], some ⟨.ok, 0x34#32⟩) := by decide
theorem test_unpb : after (.unpb 0xFF123456#32) .reset = some ([], some ⟨.ok, 0x56#32⟩) := by decide

/-- V2: a negative hue, and the row worked out in full. -/
theorem test_hsl_negative_hue : after (.hsl (BitVec.ofInt 32 (-361)) 100#16 50#16) .reset =
    some ([], some ⟨.ok, 0x00FE0105#32⟩) := by decide +kernel
theorem test_hsl_worked : after (.hsl 200#32 75#16 60#16) .reset = some ([], some ⟨.ok, 0x004DB3E6#32⟩) := by decide +kernel

/-- V4. -/
theorem test_create : regsAfter (.create 4#32 1#2 7#8) .reset =
    some ⟨.rgbW, [16#32, 0#32, 4#32], [255#8, 7#8], some ⟨.ok, 0#32⟩, [.pinWrite 7#8 false]⟩ := by decide +kernel
theorem test_create_does_not_wrap : regsAfter (.create 1431655766#32 0#2 0#8) .reset =
    some ⟨.rgb, [0#32, 0#32, 0#32], [255#8, 0#8], some ⟨.alloc, 0#32⟩, []⟩ := by decide +kernel
theorem test_setrange_edge : regsAfter (.setrange 4#32 0#32) (held .rgbW 0#32 4#32 255#8 (List.replicate 16 0#8)) =
    some ⟨.rgbW, [16#32, 4#32, 0#32], [255#8, 7#8], some ⟨.ok, 0#32⟩, []⟩ := by decide +kernel
theorem test_setrange_does_not_wrap :
    regsAfter (.setrange 0xFFFFFFFF#32 1#32) (held .rgbW 0#32 4#32 255#8 (List.replicate 16 0#8)) =
    some ⟨.rgbW, [16#32, 0#32, 4#32], [255#8, 7#8], some ⟨.range, 0#32⟩, []⟩ := by decide +kernel

/-- V3. -/
theorem test_setbr_masks : (nextOf (exec (.setbr 0x1FF#32) .reset)).map State.brightness = some 255#8 ∧
    (nextOf (exec (.setbr 256#32) .reset)).map State.brightness = some 0#8 := by decide +kernel
theorem test_setbrp : (nextOf (exec (.setbrp 50#32) .reset)).map State.brightness = some 128#8 ∧
    (nextOf (exec (.setbrp 4294967295#32) .reset)).map State.brightness = some 202#8 := by decide +kernel

/-- P1 line 3 (RGB, brightness 128), and the same in RGB_alt. -/
theorem test_setpix_rgb : after (.setpix 0#32 0x00FF55#32) (held .rgb 0#32 2#32 128#8 [0, 0, 0, 0, 0, 0]) =
    some ([0x7F, 0x00, 0x2A, 0, 0, 0], some ⟨.ok, 0#32⟩) := by decide +kernel
theorem test_setpix_rgb_alt : after (.setpix 0#32 0x00FF55#32) (held .rgbAlt 0#32 2#32 128#8 [0, 0, 0, 0, 0, 0]) =
    some ([0x00, 0x7F, 0x2A, 0, 0, 0], some ⟨.ok, 0#32⟩) := by decide +kernel

/-- P3 line 9, and an index out of range (V5). -/
theorem test_getpix : after (.getpix 0#32) (held .rgbW 1#32 1#32 255#8 [0, 0, 0, 0, 0x88, 0x77, 0x99, 0]) =
    some ([0, 0, 0, 0, 0x88, 0x77, 0x99, 0], some ⟨.ok, 0x00778899#32⟩) := by decide +kernel
theorem test_getpix_negative : after (.getpix 0xFFFFFFFF#32) (held .rgbW 1#32 1#32 255#8 [0, 0, 0, 0, 0x88, 0x77, 0x99, 0]) =
    some ([0, 0, 0, 0, 0x88, 0x77, 0x99, 0], some ⟨.ok, 0#32⟩) := by decide +kernel

/-- P3 line 12: white bytes and pixel 0 are untouched. -/
theorem test_fill : after (.fill 0xFFFFFF#32) (held .rgbW 1#32 2#32 255#8 [1, 2, 3, 0, 0, 0, 0, 0, 0, 0, 0, 0]) =
    some ([1, 2, 3, 0, 0xFF, 0xFF, 0xFF, 0, 0xFF, 0xFF, 0xFF, 0], some ⟨.ok, 0#32⟩) := by decide +kernel

/-- V5, the sub-range: CLEAR's range is `[3, 6)`. -/
theorem test_clear_literal_range :
    after .clear (held .rgb 1#32 2#32 255#8 [0, 0, 0, 0x0B, 0x0A, 0x0C, 0x0B, 0x0A, 0x0C, 0, 0, 0]) =
    some ([0, 0, 0, 0, 0, 0, 0x0B, 0x0A, 0x0C, 0, 0, 0], some ⟨.ok, 0#32⟩) := by decide +kernel

/-- P3 lines 8 and 10. -/
theorem test_rotate_one : after (.rotate 1#32)
      (held .rgbW 1#32 3#32 255#8 [0, 0, 0, 0, 0x22, 0x11, 0x33, 0, 0x55, 0x44, 0x66, 0, 0x88, 0x77, 0x99, 0]) =
    some ([0, 0, 0, 0, 0x88, 0x77, 0x99, 0, 0x22, 0x11, 0x33, 0, 0x55, 0x44, 0x66, 0], some ⟨.ok, 0#32⟩) := by decide +kernel
theorem test_rotate_minus_one : after (.rotate 0xFFFFFFFF#32)
      (held .rgbW 1#32 3#32 255#8 [0, 0, 0, 0, 0x88, 0x77, 0x99, 0, 0x22, 0x11, 0x33, 0, 0x55, 0x44, 0x66, 0]) =
    some ([0, 0, 0, 0, 0x22, 0x11, 0x33, 0, 0x55, 0x44, 0x66, 0, 0x88, 0x77, 0x99, 0], some ⟨.ok, 0#32⟩) := by decide +kernel

/-- P3 line 18, shortened, and SHOW before any CREATE (V5). -/
theorem test_show : (nextOf (exec .showBuf (held .rgbW 1#32 1#32 255#8 [0, 0, 0, 0, 2, 1, 3, 0]))).map State.events =
    some [.transmit 7#8 [0, 0, 0, 0, 2, 1, 3, 0]] := by decide +kernel
theorem test_show_at_reset : (nextOf (exec .showBuf .reset)).map State.events = some [.transmit 0#8 []] := by decide

/-! ## The step, the table's interface, the memory -/

/-- A reserved opcode, and the reserved layout of CREATE, answer ILLEGAL (V4). -/
theorem test_step_illegal : stepResponse 0xFF0000000000001234#72 = some (some ⟨.illegal, 0#32⟩) ∧
    stepResponse 0x100000000200000003#72 = some (some ⟨.illegal, 0#32⟩) := by decide

/-- A presented word is executed by the next step; a word of the table, numbered from bit 0. -/
theorem test_withFetchWord : decodeTableWord 72 0x010000001200340056 = some (.pack 0x12#32 0x34#16 0x56#16) ∧
    (nextOf (step (State.reset.withFetchWord 72 0x010000001200340056))).map (fun t => t.responses.getLast?) =
      some (some ⟨.ok, 0x123456#32⟩) := by decide

/-- Writing keeps addresses rising and replaces what an address holds. -/
theorem test_memory_write : Memory.write [(1, 5#8), (4, 6#8)] 3 9#8 = [(1, 5#8), (3, 9#8), (4, 6#8)] ∧
    Memory.write [(1, 5#8), (4, 6#8)] 4 9#8 = [(1, 5#8), (4, 9#8)] := by decide

/-- The faults of the byte accesses, each in a state that breaks R18. -/
theorem test_access_faults : (held .rgb 0#32 0#32 255#8 [1, 2, 3]).accessFault 3 = some (.deadByte 3) ∧
    (held .rgb 0#32 0#32 255#8 [1, 2, 3]).accessFault 16 = some (.outsideBuffer 16) ∧
    (held .rgb 0#32 0#32 255#8 [1, 2, 3]).accessFault 2 = none := by decide

/-- The interior hues of the five-pixel rainbow (P2): 432, 504, 576. -/
theorem test_rainbow_entries : hostShowRainbow 5 = [.colourPixel 1 100 50 0, .colourPixel 432 100 50 1,
    .colourPixel 504 100 50 2, .colourPixel 576 100 50 3, .colourPixel 360 100 50 4, .issue .showBuf] := by decide

/-- The one-pixel rainbow (P2, "Other lengths"; D24). -/
theorem test_rainbow_one : hostShowRainbow 1 = [.colourPixel 35901 100 50 0, .issue .showBuf] := by decide

/-! ## Witnesses: for each statement with hypotheses, a concrete state and operands that meet all of them -/

/-- A string of the layout RGB_W with START 1 and LENGTH 2 in three pixels. -/
def wide : State := held .rgbW 1#32 2#32 128#8 [0, 0, 0, 0, 0x22, 0x11, 0x33, 0, 0x55, 0x44, 0x66, 0]

/-- A string of the layout RGB_alt with one pixel. -/
def one : State := held .rgbAlt 0#32 1#32 255#8 [1, 2, 3]

/-- A string of the layout RGB with START 1 and LENGTH 3 in four pixels: its window has an interior pixel. -/
def interior : State := held .rgb 1#32 3#32 128#8 [9, 8, 7, 0, 0, 0, 0, 0, 0, 0, 0, 0]

/-- The witness for `Inv` (every statement whose premise it is). -/
theorem witness_inv_wide : wide.Inv :=
  ⟨by decide, by decide, by decide, by decide, by decide⟩

theorem witness_inv_one : one.Inv :=
  ⟨by decide, by decide, by decide, by decide, by decide⟩

theorem witness_inv_interior : interior.Inv :=
  ⟨by decide, by decide, by decide, by decide, by decide⟩

/-- The invariant holds of a string in a memory of more than 2^32 bytes. -/
theorem witness_inv_large_cap : State.Inv { wide with cap := 2 ^ 40 } :=
  ⟨by decide, by decide, by decide, by decide, by decide⟩

theorem witness_whiteZero_wide : wide.WhiteZero := by
  intro _ p v h
  by_cases hp : p < 3
  · interval_cases p <;> (rw [← Option.some.inj h]; decide)
  · have : ¬(Memory.read wide.buf (4 * p + 3)).isSome := by
      rw [witness_inv_wide.isSome_iff, show wide.size.toNat = 12 from rfl]; omega
    exact absurd (Option.isSome_iff_exists.2 ⟨v, h⟩) this

/-- DecodeOfEncodeIsTheCommand, StepRunsTheDecodedCommand. -/
theorem witness_wf : Instr.wf (.create 0xFFFFFFFF#32 2#2 255#8) = true := by decide

/-- DecodeReadsExactlyTheOperandBits: two words that differ in every ignored bit of CREATE. -/
theorem witness_ignored_bits : decode 0x1000000005FFFF00FC#72 = .ok (.create 5#32 0#2 0#8) ∧
    0x100000000500000000#72 &&& (Instr.create 5#32 0#2 0#8).significantBits =
      0x1000000005FFFF00FC#72 &&& (Instr.create 5#32 0#2 0#8).significantBits := by decide

/-- IgnoredBitsHaveNoEffect: GETPIX with another `d`, FILL with another `a` and other bits 31:24. -/
theorem witness_ignored_fields : (2#32 &&& 0xFFFFFFFF#32 = 2#32 &&& 0xFFFFFFFF#32 ∧ 0#32 &&& 0#32 = 0xABCD#32 &&& 0#32) ∧
    (0#32 &&& 0#32 = 7#32 &&& 0#32 ∧ 0x00FF8001#32 &&& 0x00FFFFFF#32 = 0x99FF8001#32 &&& 0x00FFFFFF#32) := by decide

/-- ReservedOpcodesAreIllegal, at the first and the last reserved opcode. -/
theorem witness_reserved_opcode :
    ((State.reset.present 0x000000000000000000#72).commands = [0x000000000000000000#72] ∧
      opcodeTable.all (fun row => 0x000000000000000000#72 &&& opcodeMask != row.2) = true) ∧
    ((State.reset.present 0xFF0000000000001234#72).commands = [0xFF0000000000001234#72] ∧
      opcodeTable.all (fun row => 0xFF0000000000001234#72 &&& opcodeMask != row.2) = true) := by decide

/-- ReservedLayoutIsIllegalBeforeSize, with ignored bits set. -/
theorem witness_reserved_layout : (State.reset.present (commandWord 0x10#8 0xFFFFFFFF#32 0xFFFFFFFF#32)).commands =
      commandWord 0x10#8 0xFFFFFFFF#32 0xFFFFFFFF#32 :: [] ∧ (0xFFFFFFFF#32).extractLsb' 0 2 = 3#2 := by decide

/-- StepRunsTheDecodedCommand, its first and second clause. -/
theorem witness_step : (State.reset.present 0x170000000000000000#72).commands = [0x170000000000000000#72] ∧
    decode 0x170000000000000000#72 = .ok .clear ∧ State.reset.commands = [] := by decide

/-- EveryCommandRespondsExactlyOnce, EveryStepKeepsTheInvariants, EveryStepKeepsWhiteBytesZero, EveryStepKeepsMemoryCanonical,
NoStepStops: a step that completes from a state with all the invariants. -/
theorem witness_step_next : (wide.present 0x180000000100000000#72).Inv ∧ (wide.present 0x180000000100000000#72).WhiteZero ∧
    Memory.wf (wide.present 0x180000000100000000#72).buf ∧
    (wide.present 0x180000000100000000#72).commands = [0x180000000100000000#72] ∧
    ∃ t, step (wide.present 0x180000000100000000#72) = .next t ∧ t.responses = [⟨.ok, 0#32⟩] :=
  ⟨⟨by decide, by decide, by decide, by decide, by decide⟩, witness_whiteZero_wide,
    wf_of_keys witness_inv_wide.liveBytes, rfl, exists_next (f := State.responses) (by decide +kernel)⟩

/-- ResultsAreZeroExtended, ErrorsAreRaisedExactlyWhenTheirConditionHolds, the write sets: each status occurs, each refusal one
step past its boundary (`CAP` 17 below the 18 bytes of six pixels; `SIZE` 12 below the 16 of a window of four). -/
theorem witness_statuses :
    (∃ t, exec (.create 6#32 3#2 0#8) wide = .next t ∧ t.responses = [⟨.illegal, 0#32⟩]) ∧
    (∃ t, exec (.create 6#32 0#2 0#8) (State.resetWith 17) = .next t ∧ t.responses = [⟨.alloc, 0#32⟩]) ∧
    (∃ t, exec (.create 6#32 0#2 0#8) (State.resetWith 18) = .next t ∧ t.responses = [⟨.ok, 0#32⟩]) ∧
    (∃ t, exec (.setrange 2#32 2#32) wide = .next t ∧ t.responses = [⟨.range, 0#32⟩]) ∧
    (∃ t, exec (.setrange 2#32 1#32) wide = .next t ∧ t.responses = [⟨.ok, 0#32⟩]) :=
  ⟨⟨_, rfl, rfl⟩, ⟨_, rfl, rfl⟩, ⟨_, rfl, rfl⟩, ⟨_, rfl, rfl⟩, ⟨_, rfl, rfl⟩⟩

/-- FailedCommandsLeaveNoTrace. -/
theorem witness_failed : ∃ t, (State.reset.present 0xFF0000000000001234#72).commands = [0xFF0000000000001234#72] ∧
    step (State.reset.present 0xFF0000000000001234#72) = .next t ∧
    t.responses = (State.reset.present 0xFF0000000000001234#72).responses ++ [⟨.illegal, 0#32⟩] ∧ Status.illegal ≠ .ok :=
  ⟨_, rfl, rfl, rfl, by decide⟩

/-- CodecRoundTrip, its clause on 24-bit colours, at the bound. -/
theorem witness_colour24 : (0xFFFFFF#32).toNat < 2 ^ 24 := by decide

/-- HslRespondsWithTheConvertedColour: the row `200, 75, 60` of V2 meets its equations. -/
theorem witness_hsl_steps : (200 : Int) = (200#32).toInt % 360 ∧ (75 : Int) = max 0 (min 99 (75#16).toInt) ∧
    (60 : Int) = max 0 (min 99 (60#16).toInt) ∧ (153 : Int) = (200 - 2 * 60) * 75 * 256 / 10000 ∧
    (85 : Int) = 200 % 60 * 256 / 60 ∧ (102 : Int) = 153 * (256 - 85) / 256 ∧ (77 : Int) = (512 * 60 / 100 - 153) / 2 := by
  decide

/-- HslIntermediatesStayInBounds, HslNeverReachesWhite: the bounds are reached at the largest reduced operands and at 67. -/
theorem witness_hsl_bounds : ((0 : Int) ≤ 359 ∧ (359 : Int) ≤ 359) ∧ ((0 : Int) ≤ 99 ∧ (99 : Int) ≤ 99) ∧
    unpackRed (hslColour 0 100 67) = 255#8 ∧ unpackRed (hslColour 0 100 66) = 254#8 := by decide +kernel

/-- HslDependsOnReducedOperandsOnly: hue -1 and 359, saturation 99 and 32767, luminance -5 and 0. -/
theorem witness_hsl_same : (BitVec.ofInt 32 (-1)).toInt % 360 = (359#32).toInt % 360 ∧
    max 0 (min 99 (99#16).toInt) = max 0 (min 99 (32767#16).toInt) ∧
    max 0 (min 99 (BitVec.ofInt 16 (-5)).toInt) = max 0 (min 99 (0#16).toInt) := by decide

/-- CreateMakesAString at the boundary (16 bytes in `CAP` 16); CreateRefusesWhatDoesNotFit one byte past it. -/
theorem witness_create : (1#2 ≠ 3#2 ∧ (4#32).toNat * (if (1#2) = 1#2 then 4 else 3) ≤ State.reset.cap ∧
      (4#32).toNat * (if (1#2) = 1#2 then 4 else 3) < 2 ^ 32) ∧
    (0#2 ≠ 3#2 ∧ (State.resetWith 17).cap < (6#32).toNat * (if (0#2) = 1#2 then 4 else 3)) := by decide

/-- SetrangeSetsOrRefusesTheWindow: the last window that fits and the first that does not. -/
theorem witness_setrange : ((1#32).toNat + (2#32).toNat) * (if wide.mode = .rgbW then 4 else 3) ≤ wide.size.toNat ∧
    wide.size.toNat < ((4#32).toNat + (0#32).toNat) * (if wide.mode = .rgbW then 4 else 3) := by decide

/-- SetbrpRoundsHalfUp at a tie: 50 per cent is 127.5, stored as 128. -/
theorem witness_setbrp : 100 * 128 ≤ 255 * (50#32).toNat + 50 ∧ 255 * (50#32).toNat + 50 < 100 * 128 + 100 := by decide

/-- ScalingFollowsBrightness, its clause below 255, at 254. -/
theorem witness_scale : 254#8 ≠ 255#8 ∧ scaleChannel 254#8 255#8 = 253#8 := by decide

/-- SetpixWritesOnePixel, GetpixReadsOnePixel, GetpixReturnsTheScaledColourWritten: the last index in range, and the first and a
negative one out of it. -/
theorem witness_index : wide.Inv ∧ (0 ≤ (1#32).toInt ∧ (1#32).toInt < (wide.length.toNat : Int)) ∧
    ¬(0 ≤ (2#32).toInt ∧ (2#32).toInt < (wide.length.toNat : Int)) ∧
    ¬(0 ≤ (0xFFFFFFFF#32).toInt ∧ (0xFFFFFFFF#32).toInt < (wide.length.toNat : Int)) :=
  ⟨witness_inv_wide, by decide⟩

/-- FillWritesTheWindow: a physical pixel of the window, an address outside it, and a white byte. -/
theorem witness_fill : wide.Inv ∧ (wide.start.toNat ≤ 2 ∧ 2 < wide.start.toNat + wide.length.toNat) ∧ ¬wide.inWindow 3 ∧
    (wide.mode = .rgbW ∧ 11 % 4 = 3) :=
  ⟨witness_inv_wide, by decide, fun h => absurd h.1 (by decide), by decide⟩

/-- ClearZeroesItsLiteralRange: the range `[4, 8)` of `wide` is not empty and does not reach its last pixel. -/
theorem witness_clear : wide.Inv ∧ (wide.start.toNat * wide.stride ≤ 4 ∧ 4 < wide.length.toNat * wide.stride) ∧
    ¬(8 < wide.length.toNat * wide.stride) := ⟨witness_inv_wide, by decide⟩

/-- RotateMovesWholePixels: the last byte of the last logical pixel; RotationsCompose: -1 and 2 compose to 3. -/
theorem witness_rotate : wide.Inv ∧ (1 < wide.length.toNat ∧ 3 < wide.stride) ∧
    ((BitVec.ofInt 32 (-1)).toInt + (2#32).toInt) % (wide.length.toNat : Int) = (3#32).toInt % (wide.length.toNat : Int) :=
  ⟨witness_inv_wide, by decide⟩

/-- CommandsWriteOnlyTheirWriteSet, OnlyShowTransmitsAndOnlyCreateWritesAPin, BytesOutsideTheWindowAreKept,
BrightnessIsReadByPixelWritesOnly: ROTATE completes, is none of the commands excluded, and leaves an address outside the
window. -/
theorem witness_frame : ∃ t, exec (.rotate 1#32) wide = .next t ∧ (∀ n m p, Instr.rotate 1#32 ≠ .create n m p) ∧
    (∀ x c, Instr.rotate 1#32 ≠ .setpix x c) ∧ (∀ c, Instr.rotate 1#32 ≠ .fill c) ∧ (∀ v, Instr.rotate 1#32 ≠ .setbr v) ∧
    (∀ v, Instr.rotate 1#32 ≠ .setbrp v) ∧ ¬wide.inWindow 3 :=
  ⟨_, rfl, by simp, by simp, by simp, by simp, by simp, fun h => absurd h.1 (by decide)⟩

/-- CommandsWriteOnlyTheirWriteSet, its clause on the buffer: GETPIX is no writer of it. -/
theorem witness_frame_buffer : ∃ t, exec (.getpix 1#32) wide = .next t ∧ (∀ n m p, Instr.getpix 1#32 ≠ .create n m p) ∧
    (∀ x c, Instr.getpix 1#32 ≠ .setpix x c) ∧ (∀ c, Instr.getpix 1#32 ≠ .fill c) ∧ Instr.getpix 1#32 ≠ .clear ∧
    (∀ k, Instr.getpix 1#32 ≠ .rotate k) ∧ Instr.getpix 1#32 ≠ .showBuf ∧ (∀ a b, Instr.getpix 1#32 ≠ .setrange a b) :=
  ⟨_, rfl, by simp, by simp, by simp, by simp, by simp, by simp, by simp⟩

/-- CodecAndHslReadNoState. -/
theorem witness_codec : ∃ r g b, Instr.pack 1#32 2#16 3#16 = .pack r g b := ⟨_, _, _, rfl⟩

/-- EveryStepKeepsTheInvariants: a CREATE of the most bytes `wide` can hold meets the premise of the first clause in a memory of
2^40 bytes and completes; the second clause's premise on `CAP` holds of `wide`. -/
theorem witness_step_create :
    (∃ t, step (State.present { wide with cap := 2 ^ 40 } 0x100000000400000701#72) = .next t ∧ t.size = 16#32) ∧
    decode 0x100000000400000701#72 = .ok (.create 4#32 1#2 7#8) ∧
    ((4#32).toNat * (if (1#2) = 1#2 then 4 else 3) ≤ 2 ^ 40 ∧ (4#32).toNat * (if (1#2) = 1#2 then 4 else 3) < 2 ^ 32) ∧
    State.Inv (State.present { wide with cap := 2 ^ 40 } 0x100000000400000701#72) ∧ wide.cap < 2 ^ 32 :=
  ⟨exists_next (f := State.size) (by decide +kernel), by decide, by decide,
    ⟨by decide, by decide, by decide, by decide, by decide⟩, by decide⟩

/-- CommandsBeforeCreateAreHarmless: the reset state, and a SETRANGE it refuses. -/
theorem witness_before_create : State.reset.Inv ∧ State.reset.size = 0#32 ∧ State.reset.length = 0#32 ∧
    (∀ n m p, Instr.setrange 0#32 1#32 ≠ .create n m p) ∧ ¬(0#32 = 0#32 ∧ 1#32 = 0#32) :=
  ⟨⟨by decide, by decide, by decide, by decide, by decide⟩, rfl, rfl, by simp, by decide⟩

/-- HostCreateMakesAThreeByteString, at the largest string that fits `CAP` 16. -/
theorem witness_host_create : 5 * 3 ≤ State.reset.cap ∧ 5 * 3 < 2 ^ 32 := by decide

/-- ControllerOperationsTransmitTheirResult (and, by its first part, ShowTransmitsTheLiveBytes and
RotateByOneLengthTimesIsTheIdentity). -/
theorem witness_controller : wide.Inv ∧ (hostClear, Instr.clear) ∈ [(hostShowColor 1, Instr.fill (BitVec.ofInt 32 1)),
    (hostClear, .clear), (hostRotate 1, .rotate (BitVec.ofInt 32 1))] := ⟨witness_inv_wide, by decide⟩

/-- RainbowColoursEveryPixelAndTransmits: the empty rainbow at 0; one pixel; two; and three, with the first, the interior and the
last pixel. -/
theorem witness_rainbow : (0 : Int) ≤ 0 ∧ (one.Inv ∧ one.length.toNat = 1) ∧
    (wide.Inv ∧ 0 < wide.length.toNat ∧ 1 + 1 = wide.length.toNat) ∧
    (interior.Inv ∧ interior.length.toNat = 3 ∧ 0 < interior.length.toNat ∧ (1 < interior.length.toNat ∧ 1 ≠ 0 ∧
      1 + 1 ≠ interior.length.toNat) ∧ 2 + 1 = interior.length.toNat) :=
  ⟨le_rfl, ⟨witness_inv_one, by decide⟩, ⟨witness_inv_wide, by decide⟩, witness_inv_interior, by decide⟩

/-- The rainbow of three pixels in RGB at brightness 128 (P2, "Other lengths"), in a window that starts at pixel 1. -/
theorem test_rainbow_three : (nextOf (runHost (hostShowRainbow 3) interior)).map (fun t => t.buf.map Prod.snd) =
    some [9, 8, 7, 0x02, 0x7F, 0x00, 0x7F, 0x00, 0x00, 0x00, 0x7F, 0x00] := by decide +kernel

/-- The empty rainbow (R113). -/
theorem test_rainbow_empty : hostShowRainbow 0 = [] ∧ hostShowRainbow (-1) = [] := by decide

end Sys2Proof.Tests
end

