-- ==== Sys2Proof/Proofs/Scope.lean ====
section
/-! PROOFS. The step (spec/00_scope.md R4): what it does for each answer of the decoder, and on the word of a command. -/

namespace Sys2Proof

/-- CREATE's field with a legal layout decodes to the layout and the pin it was put together from (R41, R46). -/
theorem decodeCreate_createField (n : Word) {mode : BitVec 2} (pin : Byte) (h : mode ≠ 3#2) :
    decodeCreate n (0#16 ++ pin ++ 0#6 ++ mode) = .ok (.create n mode pin) := by
  rw [decodeCreate, createField_mode, createField_pin, if_neg h]

/-- The opcode map sends a command's opcode and operand fields back to the command: PACK and HSL split `d` into the halves
it was joined from, CREATE needs its layout to be legal, and every other row copies its fields (R41, R44, R46). -/
theorem decodeFields_operands {i : Instr} (h : i.wf = true) :
    decodeFields i.opcode i.operands.1 i.operands.2 = .ok i := by
  cases i with
  | pack _ _ _ | hsl _ _ _ => simp [Instr.opcode, Instr.operands, decodeFields]
  | create n _ pin => exact decodeCreate_createField n pin (by simpa [Instr.wf] using h)
  | unpr _ | unpg _ | unpb _ | setrange _ _ | setbr _ | setbrp _ | setpix _ _ | getpix _ | fill _ | clear | rotate _
  | showBuf => rfl

/-- The decoder takes the word of a well-formed command back to the command (R40, R49). -/
theorem decode_encode {i : Instr} (h : i.wf = true) : decode (encode i) = .ok i := by
  rw [encode, decode_commandWord, decodeFields_operands h]

end Sys2Proof

namespace Sys2Proof.Machine

theorem takeCommand_nil {s : State} (h : s.commands = []) : s.takeCommand = none := by
  rw [State.takeCommand, h]

theorem takeCommand_cons {s : State} {w : CommandWord} {ws : List CommandWord} (h : s.commands = w :: ws) :
    s.takeCommand = some (w, { s with commands := ws }) := by
  rw [State.takeCommand, h]

/-- No word presented: the state is held (R130; log 6). -/
theorem step_of_no_command {s : State} (h : s.commands = []) : step s = .next s := by
  rw [step, takeCommand_nil h]

/-- A word that spells a command: the command is executed on the state with the word taken (R4). -/
theorem step_of_decode_ok {s s' : State} {w : CommandWord} {i : Instr} (h : s.takeCommand = some (w, s'))
    (hd : decode w = .ok i) : step s = exec i s' := by
  simp only [step, h, hd]

/-- A word that spells no command is rejected on the state with the word taken (R45, R46). -/
theorem step_of_decode_error {s s' : State} {w : CommandWord} {e : DecodeError} (h : s.takeCommand = some (w, s'))
    (hd : decode w = .error e) : step s = rejectWord e s' := by
  simp only [step, h, hd]

/-- Presenting the word of a well-formed command executes the command (R4, R49). -/
theorem step_present_encode (s : State) {i : Instr} (h : i.wf = true) : step (s.present (encode i)) = exec i s :=
  step_of_decode_ok (takeCommand_present s _) (decode_encode h)

/-- Settles O7: the step's equation for no word, its equation for a word that decodes, and the latter at the word of a
command, which decodes to the command. -/
theorem stepRunsTheDecodedCommand : Obligations.StepRunsTheDecodedCommand := by
  unfold Obligations.StepRunsTheDecodedCommand
  exact ⟨fun _ _ _ _ hc hd => step_of_decode_ok (takeCommand_cons hc) hd, fun _ => step_of_no_command,
    fun s _ => step_present_encode s⟩

end Sys2Proof.Machine
end

section
/-! PROOFS. The state (spec/10_state.md): what a command may write (R22), what does not read `BRIGHTNESS` (R15), the reset
state (R21), and the invariants (R18), which reset establishes and every step keeps. -/

namespace Sys2Proof.Machine

section WriteSets
variable {s t : State} {i : Instr}

/-- No command writes `CAP` or the host's queue. -/
theorem Effect.cap_commands (h : Effect s i t) : t.cap = s.cap ∧ t.commands = s.commands := by
  cases h <;> exact ⟨rfl, rfl⟩

/-- `MODE`, `SIZE` and `PIN` are CREATE's alone. -/
theorem Effect.mode_size_pin (h : Effect s i t) (hc : ∀ n m p, i ≠ .create n m p) :
    t.mode = s.mode ∧ t.size = s.size ∧ t.pin = s.pin := by
  cases h with
  | create n m p => exact absurd rfl (hc n m p)
  | _ => exact ⟨rfl, rfl, rfl⟩

/-- The window is CREATE's and SETRANGE's. -/
theorem Effect.start_length (h : Effect s i t) (hc : ∀ n m p, i ≠ .create n m p) (hr : ∀ a b, i ≠ .setrange a b) :
    t.start = s.start ∧ t.length = s.length := by
  cases h with
  | create n m p => exact absurd rfl (hc n m p)
  | window a b => exact absurd rfl (hr a b)
  | _ => exact ⟨rfl, rfl⟩

/-- `BRIGHTNESS` is CREATE's, SETBR's and SETBRP's. -/
theorem Effect.brightness (h : Effect s i t) (hc : ∀ n m p, i ≠ .create n m p) (hb : ∀ v, i ≠ .setbr v)
    (hp : ∀ v, i ≠ .setbrp v) : t.brightness = s.brightness := by
  cases h with
  | create n m p => exact absurd rfl (hc n m p)
  | setbr v => exact absurd rfl (hb v)
  | setbrp v => exact absurd rfl (hp v)
  | _ => rfl

theorem isPixelWrite_cases (h : Instr.isPixelWrite i = true) :
    (∃ x c, i = .setpix x c) ∨ (∃ c, i = .fill c) ∨ i = .clear ∨ ∃ k, i = .rotate k := by
  cases i with
  | setpix x c => exact .inl ⟨x, c, rfl⟩
  | fill c => exact .inr (.inl ⟨c, rfl⟩)
  | clear => exact .inr (.inr (.inl rfl))
  | rotate k => exact .inr (.inr (.inr ⟨k, rfl⟩))
  | _ => cases h

/-- The buffer is written by CREATE and the pixel writes alone. -/
theorem Effect.buf (h : Effect s i t) (hc : ∀ n m p, i ≠ .create n m p) (hw : Instr.isPixelWrite i ≠ true) :
    t.buf = s.buf := by
  cases h with
  | create n m p => exact absurd rfl (hc n m p)
  | store _ _ hi => exact absurd hi hw
  | _ => rfl

/-- Events are emitted by CREATE and SHOW alone. -/
theorem Effect.events (h : Effect s i t) (hc : ∀ n m p, i ≠ .create n m p) (hs : i ≠ .showBuf) :
    t.events = s.events := by
  cases h with
  | create n m p => exact absurd rfl (hc n m p)
  | shown => exact absurd rfl hs
  | _ => rfl

end WriteSets

/-- Settles O36: each part of the state is read off the effect of the command, by its own lemma. -/
theorem commandsWriteOnlyTheirWriteSet : Obligations.CommandsWriteOnlyTheirWriteSet := by
  unfold Obligations.CommandsWriteOnlyTheirWriteSet
  intro i s t h
  have he := exec_effect h
  refine ⟨he.cap_commands.1, he.cap_commands.2, he.mode_size_pin, he.start_length, he.brightness, ?_, he.events⟩
  intro hc hx hf hl hk
  refine he.buf hc fun hw => ?_
  obtain ⟨x, c, e⟩ | ⟨c, e⟩ | e | ⟨k, e⟩ := isPixelWrite_cases hw
  · exact hx x c e
  · exact hf c e
  · exact hl e
  · exact hk k e

section OtherBrightness
variable {s t t' : State} (br : Byte)

/-- Stores that succeed were all to allowed addresses. -/
theorem access_of_storeBytes {ws : List (Nat × Byte)} (h : s.storeBytes ws = .ok t) :
    ∀ w ∈ ws, s.accessFault w.1 = none := by
  induction ws generalizing s with
  | nil => simp
  | cons w ws ih =>
    obtain ⟨a, v⟩ := w
    simp only [State.storeBytes, State.storeByte] at h
    cases hf : s.accessFault a with
    | some f => rw [hf] at h; cases h
    | none =>
      rw [hf] at h
      exact List.forall_mem_cons.2 ⟨hf, ih (s := { s with buf := Memory.write s.buf a v }) h⟩

/-- Storing and completing was all to allowed addresses. -/
theorem access_of_storeThenDone {ws : List (Nat × Byte)} (h : s.storeThenDone ws = .next t) :
    ∀ w ∈ ws, s.accessFault w.1 = none := by
  simp only [State.storeThenDone] at h
  cases hs : s.storeBytes ws with
  | error f => rw [hs] at h; cases h
  | ok u => exact access_of_storeBytes hs

/-- Storing given bytes does not read `BRIGHTNESS`. -/
theorem storeThenDone_brightness {ws : List (Nat × Byte)} (h : s.storeThenDone ws = .next t) :
    State.storeThenDone { s with brightness := br } ws = .next { t with brightness := br } := by
  have ha := access_of_storeThenDone h
  rw [storeThenDone_next h]
  exact storeThenDone_ok (s := { s with brightness := br }) ha

/-- Loading bytes does not read `BRIGHTNESS`. -/
theorem loadBytes_brightness (s : State) (as : List Nat) :
    State.loadBytes { s with brightness := br } as = s.loadBytes as := by
  induction as with
  | nil => rfl
  | cons a as ih =>
    have hb : State.loadByte { s with brightness := br } a = s.loadByte a := rfl
    simp only [State.loadBytes, hb, ih]

/-- Loading and going on does not read `BRIGHTNESS` when what follows does not. -/
theorem loadThen_brightness {as : List Nat} {k k' : List Byte → Host.Outcome State Fault Refusal}
    (hk : ∀ vs, k vs = .next t → k' vs = .next t') (h : s.loadThen as k = .next t) :
    State.loadThen { s with brightness := br } as k' = .next t' := by
  simp only [State.loadThen, loadBytes_brightness] at h ⊢
  cases hs : s.loadBytes as with
  | error f => rw [hs] at h; cases h
  | ok vs => rw [hs] at h; exact hk vs h

/-- Loading one byte and going on does not read `BRIGHTNESS` when what follows does not. -/
theorem loadByteThen_brightness {a : Nat} {k k' : Byte → Host.Outcome State Fault Refusal}
    (hk : ∀ v, k v = .next t → k' v = .next t') (h : s.loadByteThen a k = .next t) :
    State.loadByteThen { s with brightness := br } a k' = .next t' := by
  have hb : State.loadByte { s with brightness := br } a = s.loadByte a := rfl
  simp only [State.loadByteThen, hb] at h ⊢
  cases hs : s.loadByte a with
  | error f => rw [hs] at h; cases h
  | ok v => rw [hs] at h; exact hk v h

theorem execSetrange_brightness {a b : Word} (h : execSetrange a b s = .next t) :
    execSetrange a b { s with brightness := br } = .next { t with brightness := br } := by
  simp only [execSetrange] at h ⊢
  by_cases hr : s.rangeFails a b
  · rw [if_pos hr] at h
    rw [if_pos (show State.rangeFails { s with brightness := br } a b from hr)]
    cases h; rfl
  · rw [if_neg hr] at h
    rw [if_neg (show ¬State.rangeFails { s with brightness := br } a b from hr)]
    cases h; rfl

theorem execGetpix_brightness {index : Word} (h : execGetpix index s = .next t) :
    execGetpix index { s with brightness := br } = .next { t with brightness := br } := by
  have hl : State.logicalPixel { s with brightness := br } index = s.logicalPixel index := rfl
  simp only [execGetpix, hl] at h ⊢
  cases hp : s.logicalPixel index with
  | none => rw [hp] at h; cases h; rfl
  | some i =>
    rw [hp] at h
    refine loadByteThen_brightness br (fun b0 => ?_) h
    refine loadByteThen_brightness br fun b1 => ?_
    refine loadByteThen_brightness br fun b2 h => ?_
    cases h; rfl

theorem execRotate_brightness {offset : Word} (h : execRotate offset s = .next t) :
    execRotate offset { s with brightness := br } = .next { t with brightness := br } :=
  loadThen_brightness br (fun _ => storeThenDone_brightness br) h

theorem execShow_brightness (h : execShow s = .next t) :
    execShow { s with brightness := br } = .next { t with brightness := br } :=
  loadThen_brightness br (fun _ h => by cases h; rfl) h

end OtherBrightness

/-- Settles O39, command by command: the codec commands and HSL read no state, SETRANGE compares `SIZE`, and the others load
and store bytes at addresses and with values that do not depend on `BRIGHTNESS`. -/
theorem brightnessIsReadByPixelWritesOnly : Obligations.BrightnessIsReadByPixelWritesOnly := by
  unfold Obligations.BrightnessIsReadByPixelWritesOnly
  intro i s t br hx hf hc hb hp h
  cases i with
  | pack _ _ _ | unpr _ | unpg _ | unpb _ | hsl _ _ _ => cases h; rfl
  | setpix x c => exact absurd rfl (hx x c)
  | fill c => exact absurd rfl (hf c)
  | create n m p => exact absurd rfl (hc n m p)
  | setbr v => exact absurd rfl (hb v)
  | setbrp v => exact absurd rfl (hp v)
  | setrange a b => exact execSetrange_brightness br h
  | getpix index => exact execGetpix_brightness br h
  | clear => exact storeThenDone_brightness br h
  | rotate offset => exact execRotate_brightness br h
  | showBuf => exact execShow_brightness br h

/-- Settles O40: the data of each response is written out, from the operands alone. -/
theorem codecAndHslReadNoState : Obligations.CodecAndHslReadNoState := by
  unfold Obligations.CodecAndHslReadNoState
  rintro i (⟨r, g, b, rfl⟩ | ⟨p, rfl⟩ | ⟨p, rfl⟩ | ⟨p, rfl⟩ | ⟨h, sv, lv, rfl⟩)
  · exact ⟨packColour r.toNat g.toNat b.toNat, fun _ => rfl⟩
  · exact ⟨byteData (unpackRed p), fun _ => rfl⟩
  · exact ⟨byteData (unpackGreen p), fun _ => rfl⟩
  · exact ⟨byteData (unpackBlue p), fun _ => rfl⟩
  · exact ⟨hslColour h.toInt sv.toInt lv.toInt, fun _ => rfl⟩

/-- Settles O41: every field as `State.resetWith` sets it; a read of the empty memory gives no value. -/
theorem resetStateIsAsTabulated : Obligations.ResetStateIsAsTabulated := by
  unfold Obligations.ResetStateIsAsTabulated
  exact ⟨fun _ => ⟨rfl, rfl, rfl, rfl, rfl, rfl, rfl, rfl, rfl, read_nil, rfl⟩, rfl, rfl⟩

/-- Every layout's number is one of the three legal ones (R11). -/
theorem layoutCode_ne_reserved (layout : Layout) : layoutCode layout ≠ 3#2 := by
  cases layout <;> decide

/-- At reset nothing is live and the window is empty, so R18 holds of any capacity. -/
theorem resetWith_inv (cap : Nat) : (State.resetWith cap).Inv where
  sizeFits := Nat.zero_le cap
  sizeMultiple := rfl
  windowFits := le_rfl
  modeLegal := layoutCode_ne_reserved _
  liveBytes := rfl

/-- No byte holds a value at reset. -/
theorem resetWith_whiteZero (cap : Nat) : (State.resetWith cap).WhiteZero :=
  fun hm => nomatch hm

/-- Settles O42. -/
theorem resetEstablishesTheInvariants : Obligations.ResetEstablishesTheInvariants := by
  unfold Obligations.ResetEstablishesTheInvariants
  exact ⟨fun cap => ⟨resetWith_inv cap, resetWith_whiteZero cap⟩, resetWith_inv _, resetWith_whiteZero _⟩

section Invariants
variable {s t : State} {i : Instr}

/-- What R18 does not speak of may change: the brightness, the pin, the host's queue, the responses and the events. -/
theorem State.Inv.newUnconstrained (hi : s.Inv) (br pin : Byte) (cs : List CommandWord) (rs : List Response)
    (es : List Event) :
    State.Inv { s with brightness := br, pin := pin, commands := cs, responses := rs, events := es } :=
  ⟨hi.sizeFits, hi.sizeMultiple, hi.windowFits, hi.modeLegal, hi.liveBytes⟩

theorem State.Inv.respond (hi : s.Inv) (st : Status) (d : Word) : (s.respond st d).Inv :=
  hi.newUnconstrained _ _ _ _ _

theorem State.Inv.emit (hi : s.Inv) (e : Event) : (s.emit e).Inv :=
  hi.newUnconstrained _ _ _ _ _

/-- A window that passes SETRANGE's check may be set. -/
theorem State.Inv.newWindow (hi : s.Inv) {a b : Word} (h : (a.toNat + b.toNat) * s.stride ≤ s.size.toNat) :
    State.Inv { s with start := a, length := b } :=
  ⟨hi.sizeFits, hi.sizeMultiple, h, hi.modeLegal, hi.liveBytes⟩

/-- A new string has the invariant, whatever the state before: `SIZE` is the exact byte count, a whole number of pixels, and
the window is all of them (R80). -/
theorem makeString_inv (layout : Layout) (n : Word) (pin : Byte) (hcap : bytesNeeded layout n ≤ s.cap)
    (hfit : bytesNeeded layout n < 2 ^ 32) : (s.makeString layout n pin).Inv := by
  have hsize : (s.makeString layout n pin).size.toNat = n.toNat * strideOf layout := sizeRegister_toNat hfit
  have hstride : (s.makeString layout n pin).stride = strideOf layout := rfl
  constructor
  case sizeFits => rw [hsize]; exact hcap
  case sizeMultiple => rw [hsize, hstride, Nat.mul_mod_left]
  case windowFits => rw [hsize, hstride]; simp
  case modeLegal => exact layoutCode_ne_reserved layout
  case liveBytes => exact keys_zeroed _

/-- A command keeps the invariant, but for a CREATE whose byte count fits `CAP` and not 32 bits (log 2). -/
theorem Effect.inv (h : Effect s i t) (hi : s.Inv)
    (hfit : ∀ n mode pin, i = .create n mode pin → n.toNat * (if mode = 1#2 then 4 else 3) ≤ s.cap →
      n.toNat * (if mode = 1#2 then 4 else 3) < 2 ^ 32) : t.Inv := by
  cases h with
  | answer | illegal | alloc | range => exact hi.respond _ _
  | create n mode pin layout hl hcap =>
    have hbytes := bytesNeeded_eq hl n
    have h32 : bytesNeeded layout n < 2 ^ 32 := hbytes ▸ hfit n mode pin rfl (hbytes ▸ hcap)
    exact ((makeString_inv layout n pin hcap h32).emit _).respond _ _
  | window a b hw => exact (hi.newWindow hw).respond _ _
  | setbr | setbrp => exact hi.newUnconstrained _ _ _ _ _
  | store _ ws _ hw => exact hi.newBuffer (hi.keys_writeAll fun w hm => hi.window_live (hw w hm).1) _ _
  | shown => exact (hi.emit _).respond _ _

/-- A step keeps the invariant, but for a CREATE whose byte count fits `CAP` and not 32 bits (log 2). -/
theorem step_inv (hi : s.Inv) (h : step s = .next t)
    (hfit : ∀ w ws n mode pin, s.commands = w :: ws → decode w = .ok (.create n mode pin) →
      n.toNat * (if mode = 1#2 then 4 else 3) ≤ s.cap → n.toNat * (if mode = 1#2 then 4 else 3) < 2 ^ 32) : t.Inv := by
  obtain ⟨-, rfl⟩ | ⟨w, ws, hc, ⟨i, hd, he⟩ | ⟨-, rfl⟩⟩ := step_effect h
  · exact hi
  · refine he.inv (hi.newUnconstrained _ _ _ _ _) ?_
    rintro n mode pin rfl
    exact hfit w ws n mode pin hc hd
  · exact hi.newUnconstrained _ _ _ _ _

/-- No step writes `CAP`. -/
theorem step_cap (h : step s = .next t) : t.cap = s.cap := by
  obtain ⟨-, rfl⟩ | ⟨w, ws, -, ⟨i, -, he⟩ | ⟨-, rfl⟩⟩ := step_effect h
  · rfl
  · exact he.cap_commands.1
  · rfl

end Invariants

/-- Settles O45: a step that completes has one of the effects of `step_effect`, each of which keeps the invariant. With
`CAP` below 2^32 a CREATE that fits `CAP` fits 32 bits. -/
theorem everyStepKeepsTheInvariants : Obligations.EveryStepKeepsTheInvariants := by
  unfold Obligations.EveryStepKeepsTheInvariants
  refine ⟨fun s t hi h hfit => step_inv hi h hfit, fun s t hcap hi h => ⟨step_cap h ▸ hcap, step_inv hi h ?_⟩⟩
  intro w ws n mode pin _ _ hle
  exact lt_of_le_of_lt hle hcap

end Sys2Proof.Machine
end

section
/-! PROOFS. The buffer memory (spec/20_memory.md): the bytes outside the logical window are kept (R30), and no step from a
state with the invariants R18 makes an access that faults (R31). -/

namespace Sys2Proof.Machine

section Window
variable {s t : State} {i : Instr}

/-- Outside the window every byte is kept but by CREATE: the buffer is written by window writes alone (R30). -/
theorem Effect.byteAt_of_not_inWindow (h : Effect s i t) (hc : ∀ n m p, i ≠ .create n m p) {a : Nat}
    (ha : ¬s.inWindow a) : t.byteAt a = s.byteAt a := by
  cases h with
  | create n m p => exact absurd rfl (hc n m p)
  | store _ ws _ hw =>
    have hother : ∀ w ∈ ws, w.1 ≠ a := fun w hm e => ha (e ▸ (hw w hm).1)
    exact read_writeAll_other s.buf ws hother
  | _ => rfl

end Window

/-- Settles O38: whatever a command did is one of the effects of `exec_effect`. -/
theorem bytesOutsideTheWindowAreKept : Obligations.BytesOutsideTheWindowAreKept := by
  unfold Obligations.BytesOutsideTheWindowAreKept
  intro i s t h hc a ha
  exact (exec_effect h).byteAt_of_not_inWindow hc ha

section Completion
variable {s : State}

/-- CREATE answers in every state: it refuses the layout or the size, or makes the string (R80, R125). -/
theorem exec_create_completes (n : Word) (mode : BitVec 2) (pin : Byte) (s : State) :
    ∃ t, exec (.create n mode pin) s = .next t := by
  simp only [exec, execCreate]
  cases layoutOfCode mode with
  | none => exact ⟨_, rfl⟩
  | some layout =>
    by_cases ha : s.allocFails layout n
    · exact ⟨_, if_pos ha⟩
    · exact ⟨_, if_neg ha⟩

/-- SETRANGE answers in every state: it refuses the window or sets it (R81). -/
theorem exec_setrange_completes (a b : Word) (s : State) : ∃ t, exec (.setrange a b) s = .next t := by
  by_cases hr : s.rangeFails a b
  · exact ⟨_, if_pos hr⟩
  · exact ⟨_, if_neg hr⟩

/-- A pixel command with an index out of range is a no-op that answers (OK, 0) (R92, R93). -/
theorem exec_of_logicalPixel_eq_none {index : Word} (h : s.logicalPixel index = none) :
    (∀ rgb, exec (.setpix index rgb) s = .next (s.respond .ok 0#32)) ∧
      exec (.getpix index) s = .next (s.respond .ok 0#32) := by
  simp only [exec, execSetpix, execGetpix, h]
  exact ⟨fun _ => rfl, rfl⟩

/-- SHOW transmits the live bytes, each of which holds a value (R97). -/
theorem exec_showBuf (hi : s.Inv) : ∃ bytes, bytes.map some = (List.range s.size.toNat).map (Memory.read s.buf) ∧
    exec .showBuf s = .next ((s.emit (.transmit s.pin bytes)).respond .ok 0#32) := by
  refine loadThen_ok (fun bytes => (s.emit (.transmit s.pin bytes)).done 0#32) fun a ha => ?_
  have hlive : a < s.size.toNat := List.mem_range.1 ha
  exact ⟨hi.access hlive, (hi.isSome_iff a).2 hlive⟩

/-- A word that spells no command is answered with ILLEGAL, for either reason (R45, R46, R121). -/
theorem rejectWord_eq (e : DecodeError) (s : State) : rejectWord e s = .next (s.respond .illegal 0#32) := by
  cases e <;> rfl

/-- Every command answers in a state with the invariant. The codec, HSL, brightness, CREATE and SETRANGE commands access no
byte; every byte the pixel commands access is live. -/
theorem State.Inv.exec_completes (hi : s.Inv) (i : Instr) : ∃ t, exec i s = .next t := by
  cases i with
  | pack _ _ _ | unpr _ | unpg _ | unpb _ | hsl _ _ _ | setbr _ | setbrp _ => exact ⟨_, rfl⟩
  | create n mode pin => exact exec_create_completes n mode pin s
  | setrange a b => exact exec_setrange_completes a b s
  | setpix index rgb =>
    cases hp : s.logicalPixel index with
    | none => exact ⟨_, (exec_of_logicalPixel_eq_none hp).1 rgb⟩
    | some p => exact ⟨_, exec_setpix hi hp⟩
  | getpix index =>
    cases hp : s.logicalPixel index with
    | none => exact ⟨_, (exec_of_logicalPixel_eq_none hp).2⟩
    | some p =>
      obtain ⟨_, _, _, -, -, -, h⟩ := exec_getpix hi hp rfl
      exact ⟨_, h⟩
  | fill rgb => exact ⟨_, exec_fill hi rgb⟩
  | clear => exact ⟨_, exec_clear hi⟩
  | rotate k =>
    obtain ⟨_, h, -⟩ := exec_rotate hi k
    exact ⟨_, h⟩
  | showBuf =>
    obtain ⟨_, -, h⟩ := exec_showBuf hi
    exact ⟨_, h⟩

/-- A step from a state with the invariant answers, whatever word waits: taking the word keeps the invariant. -/
theorem State.Inv.safe (hi : s.Inv) : s.Safe := by
  cases hc : s.commands with
  | nil => exact ⟨s, step_of_no_command hc⟩
  | cons w ws =>
    have htaken : State.Inv { s with commands := ws } := hi.newUnconstrained _ _ _ _ _
    have htake := takeCommand_cons hc
    cases hd : decode w with
    | ok i =>
      obtain ⟨t, ht⟩ := htaken.exec_completes i
      exact ⟨t, (step_of_decode_ok htake hd).trans ht⟩
    | error e => exact ⟨_, (step_of_decode_error htake hd).trans (rejectWord_eq e _)⟩

end Completion

/-- Settles O47: the invariant alone makes every step answer. -/
theorem noStepStops : Obligations.NoStepStops := by
  unfold Obligations.NoStepStops
  exact fun _ hi => hi.safe

end Sys2Proof.Machine
end

section
/-! PROOFS. The encoding (spec/30_encoding.md): which words spell which command and on which of their bits a step depends
(R41, R44 to R47), and what a command's response and events hold (R42, R43, R48). -/

namespace Sys2Proof

/-- Settles O2: the decoder takes the word of a well-formed command back to the command. -/
theorem decodeOfEncodeIsTheCommand : Obligations.DecodeOfEncodeIsTheCommand := by
  unfold Obligations.DecodeOfEncodeIsTheCommand
  exact fun _ hwf => decode_encode hwf

/-- A mask of ones takes every bit of an operand field. -/
@[simp] theorem and_fullMask (x : Word) : x &&& 0xFFFFFFFF#32 = x := BitVec.and_allOnes

/-- A mask of ones takes every bit of an opcode. -/
@[simp] theorem opcode_and_fullMask (op : Byte) : op &&& 0xFF#8 = op := BitVec.and_allOnes

/-- A field `d` is two halves put together exactly when they are its halves (R41). -/
theorem eq_halves_iff {d : Word} {h l : Half} : d = h ++ l ↔ hiHalf d = h ∧ loHalf d = l := by
  constructor
  · rintro rfl; exact ⟨hiHalf_append h l, loHalf_append h l⟩
  · rintro ⟨rfl, rfl⟩; exact (halves_append d).symm

/-- The bits that CREATE reads of `d` (R41). -/
theorem createMask_getLsbD : ∀ i < 32, (0x0000FF03#32).getLsbD i = decide (i < 2 ∨ 8 ≤ i ∧ i < 16) := by decide

/-- The bits that CREATE reads of `d` are its layout and its pin, put together as the encoder does (R41, R49). -/
theorem and_createMask (d : Word) :
    d &&& 0x0000FF03#32 = (0#16 ++ d.extractLsb' 8 8 ++ 0#6 ++ d.extractLsb' 0 2 : Word) := by
  refine BitVec.eq_of_getLsbD_eq fun i hi => ?_
  have hfield : ∀ (pin : Byte) (mode : BitVec 2), (0#16 ++ pin ++ 0#6 ++ mode : Word).getLsbD i =
      (0#16 ++ pin ++ 0#6 ++ mode).getLsbD i := fun _ _ => rfl
  rw [BitVec.getLsbD_and, createMask_getLsbD i hi, hfield]
  simp only [BitVec.getLsbD_append, BitVec.getLsbD_extractLsb', BitVec.getLsbD_zero]
  grind

/-- The bits that CREATE reads of `d` are those of a layout and a pin exactly when these are its fields (R41). -/
theorem and_createMask_eq_iff {d : Word} {mode : BitVec 2} {pin : Byte} :
    d &&& 0x0000FF03#32 = (0#16 ++ pin ++ 0#6 ++ mode : Word) ↔ d.extractLsb' 0 2 = mode ∧ d.extractLsb' 8 8 = pin := by
  rw [and_createMask]
  constructor
  · intro h
    exact ⟨by rw [← createField_mode mode pin, ← h, createField_mode],
      by rw [← createField_pin mode pin, ← h, createField_pin]⟩
  · rintro ⟨rfl, rfl⟩; rfl

/-- When CREATE's operand fields spell a command, and which (R41, R46). -/
theorem decodeCreate_eq_ok_iff {a d : Word} {i : Instr} : decodeCreate a d = .ok i ↔
    d.extractLsb' 0 2 ≠ 3#2 ∧ .create a (d.extractLsb' 0 2) (d.extractLsb' 8 8) = i := by
  by_cases h : d.extractLsb' 0 2 = 3#2 <;> simp [decodeCreate, h]

/-- The fields of a word that decodes to a command: the command's opcode and, on the bits R41 names, its operands. -/
theorem fields_of_decodeFields_eq_ok {op : Byte} {a d : Word} {i : Instr} (h : decodeFields op a d = .ok i) :
    i.wf = true ∧ op = i.opcode ∧ a &&& i.operandBits.1 = i.operands.1 ∧ d &&& i.operandBits.2 = i.operands.2 := by
  unfold decodeFields at h
  split at h
  case h_6 => -- the row of CREATE, the only one that looks at an operand
    obtain ⟨hlegal, rfl⟩ := decodeCreate_eq_ok_iff.1 h
    exact ⟨bne_iff_ne.2 hlegal, rfl, and_fullMask a, and_createMask d⟩
  case h_16 => cases h -- a reserved opcode
  all_goals
    cases h
    refine ⟨rfl, rfl, ?_, ?_⟩ <;> simp [Instr.operandBits, Instr.operands, halves_append]

/-- A command's opcode, with its operands on the bits R41 names, decodes to the command, whatever the other bits. -/
theorem decodeFields_eq_ok_of_fields {a d : Word} {i : Instr} (hwf : i.wf = true)
    (ha : a &&& i.operandBits.1 = i.operands.1) (hd : d &&& i.operandBits.2 = i.operands.2) :
    decodeFields i.opcode a d = .ok i := by
  cases i with
  | pack red green blue | hsl hue sat lum =>
    simp only [Instr.operandBits, Instr.operands, and_fullMask, eq_halves_iff] at ha hd
    obtain ⟨rfl, rfl⟩ := hd
    rw [← ha]; rfl
  | create n mode pin =>
    simp only [Instr.operandBits, Instr.operands, and_fullMask, and_createMask_eq_iff] at ha hd
    obtain ⟨rfl, rfl⟩ := hd
    exact decodeCreate_eq_ok_iff.2 ⟨bne_iff_ne.1 hwf, by rw [ha]⟩
  | _ =>
    simp only [Instr.operandBits, Instr.operands, and_fullMask] at ha hd
    subst_vars
    rfl

/-- A word decodes to a command exactly when the command is well formed and the word is the command's on the bits that
decoding reads for it (R40, R41, R44, R46). -/
theorem decode_eq_ok_iff {w : CommandWord} {i : Instr} :
    decode w = .ok i ↔ i.wf = true ∧ w &&& i.significantBits = encode i := by
  have hbits : w &&& i.significantBits = encode i ↔ opField w = i.opcode ∧
      aField w &&& i.operandBits.1 = i.operands.1 ∧ dField w &&& i.operandBits.2 = i.operands.2 := by
    conv_lhs => rw [← commandWord_fields w]
    rw [Instr.significantBits, encode, commandWord_and, commandWord_inj, opcode_and_fullMask]
  rw [hbits, decode]
  constructor
  · exact fields_of_decodeFields_eq_ok
  · rintro ⟨hwf, hop, ha, hd⟩
    rw [hop]
    exact decodeFields_eq_ok_of_fields hwf ha hd

/-- Settles O3: a word decodes to a command exactly when it is the command's word on the bits that decoding reads, which is
all a second word has to share. -/
theorem decodeReadsExactlyTheOperandBits : Obligations.DecodeReadsExactlyTheOperandBits := by
  unfold Obligations.DecodeReadsExactlyTheOperandBits
  intro w i h
  obtain ⟨hwf, hw⟩ := decode_eq_ok_iff.1 h
  exact ⟨hwf, hw.symm, fun w' hw' => decode_eq_ok_iff.2 ⟨hwf, hw'.trans hw⟩⟩

/-- Settles O1: the decoder evaluates each word. -/
theorem writtenWordsDecodeAsTheSpecSays : Obligations.WrittenWordsDecodeAsTheSpecSays := by
  unfold Obligations.WrittenWordsDecodeAsTheSpecSays
  decide

end Sys2Proof

namespace Sys2Proof.Machine

/-! ## Ignored bits -/

/-- A step on a presented word is what the decoder and the command make of its fields (R4). -/
theorem step_present_congr {op : Byte} {a d a' d' : Word} (h : decodeFields op a d = decodeFields op a' d') (s : State) :
    step (s.present (commandWord op a d)) = step (s.present (commandWord op a' d')) := by
  simp only [step, takeCommand_present, decode_commandWord, h]

/-- Two words that decode to commands with one effect make one step. -/
theorem step_present_congr_of_exec {op : Byte} {a d a' d' : Word} {i i' : Instr} {s : State}
    (h : decodeFields op a d = .ok i) (h' : decodeFields op a' d' = .ok i') (he : exec i s = exec i' s) :
    step (s.present (commandWord op a d)) = step (s.present (commandWord op a' d')) := by
  simp only [step, takeCommand_present, decode_commandWord, h, h', he]

/-- A colour's bits 31:24 are in none of its channels (R57 to R59). -/
theorem unpack_congr {p q : Word} (h : p &&& 0x00FFFFFF#32 = q &&& 0x00FFFFFF#32) :
    unpackRed p = unpackRed q ∧ unpackGreen p = unpackGreen q ∧ unpackBlue p = unpackBlue q := by
  have hmod : p.toNat % 2 ^ 24 = q.toNat % 2 ^ 24 := by
    simpa only [BitVec.toNat_and, show (0x00FFFFFF#32).toNat = 2 ^ 24 - 1 from rfl, Nat.and_two_pow_sub_one_eq_mod]
      using congrArg BitVec.toNat h
  refine ⟨?_, ?_, ?_⟩ <;> apply BitVec.eq_of_toNat_eq <;>
    simp only [unpackRed, unpackGreen, unpackBlue, BitVec.toNat_ofNat] <;> omega

/-- Writing a pixel reads the channels of the colour alone (R91). -/
theorem pixelWrites_congr {p q : Word} (h : p &&& 0x00FFFFFF#32 = q &&& 0x00FFFFFF#32) (s : State) (k : Nat) :
    s.pixelWrites k p = s.pixelWrites k q := by
  obtain ⟨hr, hg, hb⟩ := unpack_congr h
  simp only [State.pixelWrites, hr, hg, hb]

/-- The commands on a packed colour do not depend on its bits 31:24 (R47). -/
theorem exec_colour_congr {p q : Word} (h : p &&& 0x00FFFFFF#32 = q &&& 0x00FFFFFF#32) (s : State) :
    exec (.unpr p) s = exec (.unpr q) s ∧ exec (.unpg p) s = exec (.unpg q) s ∧ exec (.unpb p) s = exec (.unpb q) s ∧
      (∀ index, exec (.setpix index p) s = exec (.setpix index q) s) ∧ exec (.fill p) s = exec (.fill q) s := by
  obtain ⟨hr, hg, hb⟩ := unpack_congr h
  refine ⟨?_, ?_, ?_, fun index => ?_, ?_⟩
  · simp only [exec, execUnpr, hr]
  · simp only [exec, execUnpg, hg]
  · simp only [exec, execUnpb, hb]
  · simp only [exec, execSetpix, pixelWrites_congr h]
  · simp only [exec, execFill, State.fillWrites, pixelWrites_congr h]

/-- CREATE's decoding reads the layout and the pin of `d` alone (R41, R46). -/
theorem decodeFields_create_congr {d d' : Word} (h : d &&& 0x0000FF03#32 = d' &&& 0x0000FF03#32) (a : Word) :
    decodeFields 0x10#8 a d = decodeFields 0x10#8 a d' := by
  rw [and_createMask d', and_createMask_eq_iff] at h
  obtain ⟨hmode, hpin⟩ := h
  simp only [decodeFields, decodeCreate, hmode, hpin]

/-- Settles O4, row by row of the table of R47: where a whole operand field is read or ignored, both words decode to one
command; CREATE reads its layout and pin; the commands on a colour decode to two commands with one effect. -/
theorem ignoredBitsHaveNoEffect : Obligations.IgnoredBitsHaveNoEffect := by
  unfold Obligations.IgnoredBitsHaveNoEffect
  simp only [List.forall_mem_cons, and_fullMask]
  refine ⟨?pack, ?unpr, ?unpg, ?unpb, ?hsl, ?create, ?setrange, ?setbr, ?setbrp, ?setpix, ?getpix, ?fill, ?clear, ?rotate,
    ?shown, List.forall_mem_nil _⟩ <;> intro s a d a' d' ha hd
  case pack | hsl | setrange => rw [ha, hd]
  case setbr | setbrp => rw [hd]; exact step_present_congr_of_exec rfl rfl rfl
  case getpix | rotate => rw [ha]; exact step_present_congr_of_exec rfl rfl rfl
  case clear | shown => exact step_present_congr_of_exec rfl rfl rfl
  case create => rw [ha]; exact step_present_congr (decodeFields_create_congr hd a') s
  case unpr =>
    obtain ⟨he, -⟩ := exec_colour_congr hd s
    exact step_present_congr_of_exec rfl rfl he
  case unpg =>
    obtain ⟨-, he, -⟩ := exec_colour_congr hd s
    exact step_present_congr_of_exec rfl rfl he
  case unpb =>
    obtain ⟨-, -, he, -⟩ := exec_colour_congr hd s
    exact step_present_congr_of_exec rfl rfl he
  case setpix =>
    obtain ⟨-, -, -, he, -⟩ := exec_colour_congr hd s
    rw [ha]; exact step_present_congr_of_exec rfl rfl (he a')
  case fill =>
    obtain ⟨-, -, -, -, he⟩ := exec_colour_congr hd s
    exact step_present_congr_of_exec rfl rfl he

/-! ## Words that spell no command -/

/-- The mask of the opcode table keeps the opcode alone (R44). -/
theorem and_opcodeMask (w : CommandWord) : w &&& opcodeMask = commandWord (opField w) 0#32 0#32 := by
  conv_lhs => rw [← commandWord_fields w, show opcodeMask = commandWord 0xFF#8 0#32 0#32 from rfl, commandWord_and]
  simp only [opcode_and_fullMask, BitVec.and_zero]

/-- Every row of the opcode table is a command's opcode (R44). -/
theorem opcode_of_mem_opcodeTable : ∀ row ∈ opcodeTable, ∃ i : Instr, row.2 = commandWord i.opcode 0#32 0#32 := by
  simp only [opcodeTable, List.forall_mem_cons]
  exact ⟨⟨.pack 0 0 0, rfl⟩, ⟨.unpr 0, rfl⟩, ⟨.unpg 0, rfl⟩, ⟨.unpb 0, rfl⟩, ⟨.hsl 0 0 0, rfl⟩, ⟨.create 0 0 0, rfl⟩,
    ⟨.setrange 0 0, rfl⟩, ⟨.setbr 0, rfl⟩, ⟨.setbrp 0, rfl⟩, ⟨.setpix 0 0, rfl⟩, ⟨.getpix 0, rfl⟩, ⟨.fill 0, rfl⟩,
    ⟨.clear, rfl⟩, ⟨.rotate 0, rfl⟩, ⟨.showBuf, rfl⟩, List.forall_mem_nil _⟩

/-- Every command's opcode is a row of the opcode table (R44). -/
theorem opcode_mem_opcodeTable (i : Instr) : ∃ row ∈ opcodeTable, row.2 = commandWord i.opcode 0#32 0#32 := by
  cases i <;> simp only [Instr.opcode] <;> decide

/-- A word matches a row of the opcode table exactly when its opcode is a command's (R44). -/
theorem exists_opcodeTable_row_iff (w : CommandWord) :
    (∃ row ∈ opcodeTable, w &&& opcodeMask = row.2) ↔ ∃ i : Instr, i.opcode = opField w := by
  rw [and_opcodeMask]
  constructor
  · rintro ⟨row, hrow, h⟩
    obtain ⟨i, hi⟩ := opcode_of_mem_opcodeTable row hrow
    obtain ⟨hop, -⟩ := commandWord_inj.1 (h.trans hi)
    exact ⟨i, hop.symm⟩
  · rintro ⟨i, hi⟩
    obtain ⟨row, hrow, h⟩ := opcode_mem_opcodeTable i
    exact ⟨row, hrow, by rw [h, hi]⟩

/-- The opcode of a command decodes, but for CREATE's with the reserved layout (R44, R46). -/
theorem decodeFields_opcode_ok (i : Instr) {a d : Word} (h : ¬(i.opcode = 0x10#8 ∧ d.extractLsb' 0 2 = 3#2)) :
    ∃ j, decodeFields i.opcode a d = .ok j := by
  cases i with
  | create _ _ _ => exact ⟨_, decodeCreate_eq_ok_iff.2 ⟨fun hd => h ⟨rfl, hd⟩, rfl⟩⟩
  | _ => exact ⟨_, rfl⟩

/-- A word spells a command exactly when its opcode is a command's and it is not CREATE with the reserved layout (R44 to
R46). -/
theorem exists_decode_ok_iff (w : CommandWord) : (∃ i, decode w = .ok i) ↔
    (∃ i : Instr, i.opcode = opField w) ∧ ¬(opField w = 0x10#8 ∧ (dField w).extractLsb' 0 2 = 3#2) := by
  constructor
  · rintro ⟨i, h⟩
    obtain ⟨-, hopcode, -, -⟩ := fields_of_decodeFields_eq_ok h
    refine ⟨⟨i, hopcode.symm⟩, ?_⟩
    rintro ⟨hop, hd⟩
    rw [decode, hop] at h
    exact (decodeCreate_eq_ok_iff.1 h).1 hd
  · rintro ⟨⟨i, hi⟩, h⟩
    rw [decode, ← hi]
    exact decodeFields_opcode_ok i (hi ▸ h)

/-- The two bits of `d` that tell CREATE's layout, as bits of the word (R40, R41). -/
theorem layoutBits_eq (w : CommandWord) : w.extractLsb' 0 2 = (dField w).extractLsb' 0 2 := by
  apply BitVec.eq_of_toNat_eq
  simp only [dField, BitVec.extractLsb'_toNat, Nat.shiftRight_zero]
  omega

/-- A step on a word that spells no command: nothing changes but that the word is taken and answered with ILLEGAL (R45,
R121). -/
theorem step_of_not_decode_ok {s : State} {w : CommandWord} {ws : List CommandWord} (hc : s.commands = w :: ws)
    (h : ¬∃ i, decode w = .ok i) :
    step s = .next { s with commands := ws, responses := s.responses ++ [⟨.illegal, 0#32⟩] } := by
  cases hd : decode w with
  | ok i => exact absurd ⟨i, hd⟩ h
  | error e => exact (step_of_decode_error (takeCommand_cons hc) hd).trans (rejectWord_eq e _)

/-- 241 of the 256 opcodes are in no row of the opcode table (R45). -/
theorem reservedOpcodes_count : ((List.range 256).filter fun op =>
    opcodeTable.all fun row => row.2.extractLsb' 64 8 != BitVec.ofNat 8 op).length = 241 := by decide +kernel

/-- Settles O5: the rows are the commands' opcodes, which are those that decode. -/
theorem reservedOpcodesAreIllegal : Obligations.ReservedOpcodesAreIllegal := by
  unfold Obligations.ReservedOpcodesAreIllegal
  refine ⟨fun w => ?_, reservedOpcodes_count, fun s w ws hc hrow => step_of_not_decode_ok hc ?_⟩
  · rw [exists_opcodeTable_row_iff, layoutBits_eq]
    exact exists_decode_ok_iff w
  · intro hok
    obtain ⟨row, hmem, h⟩ := (exists_opcodeTable_row_iff w).2 ((exists_decode_ok_iff w).1 hok).1
    exact hrow row hmem h

/-- Settles O6: CREATE's opcode with the reserved layout spells no command, and CREATE's meaning looks at the layout before
anything else. -/
theorem reservedLayoutIsIllegalBeforeSize : Obligations.ReservedLayoutIsIllegalBeforeSize := by
  unfold Obligations.ReservedLayoutIsIllegalBeforeSize
  refine ⟨fun s a d ws hc hd => step_of_not_decode_ok hc ?_, fun _ _ _ => rfl⟩
  rw [exists_decode_ok_iff, opField_commandWord, dField_commandWord]
  exact fun h => h.2 ⟨rfl, hd⟩

/-! ## Responses and events -/

/-- A command gives one response and at most one event; an error gives data 0 and no event (R42, R48, R126). -/
theorem Effect.responds_once {s t : State} {i : Instr} (h : Effect s i t) :
    ∃ (r : Response) (es : List Event), t.responses = s.responses ++ [r] ∧ t.events = s.events ++ es ∧
      es.length ≤ 1 ∧ (r.status ≠ .ok → r.data = 0#32 ∧ es = []) := by
  cases h with
  | illegal | alloc | range => exact ⟨_, [], rfl, (List.append_nil _).symm, Nat.zero_le 1, fun _ => ⟨rfl, rfl⟩⟩
  | answer | window | setbr | setbrp | store =>
    exact ⟨_, [], rfl, (List.append_nil _).symm, Nat.zero_le 1, fun hne => absurd rfl hne⟩
  | create | shown => exact ⟨_, [_], rfl, rfl, le_refl 1, fun hne => absurd rfl hne⟩

/-- Settles O8: a step that takes a word executes a command or raises ILLEGAL. -/
theorem everyCommandRespondsExactlyOnce : Obligations.EveryCommandRespondsExactlyOnce := by
  unfold Obligations.EveryCommandRespondsExactlyOnce
  intro s t w ws hc h
  obtain ⟨hnil, -⟩ | ⟨w', ws', hc', ⟨i, -, he⟩ | ⟨-, rfl⟩⟩ := step_effect h
  · rw [hc] at hnil; cases hnil
  · rw [hc] at hc'; cases hc'
    exact ⟨he.cap_commands.2, he.responds_once⟩
  · rw [hc] at hc'; cases hc'
    exact ⟨rfl, _, [], rfl, (List.append_nil _).symm, Nat.zero_le 1, fun _ => ⟨rfl, rfl⟩⟩

/-- Settles O37: of the effects a command can have, a new string and SHOW emit their event and the others emit none. -/
theorem onlyShowTransmitsAndOnlyCreateWritesAPin : Obligations.OnlyShowTransmitsAndOnlyCreateWritesAPin := by
  unfold Obligations.OnlyShowTransmitsAndOnlyCreateWritesAPin
  intro i s t h
  cases exec_effect h with
  | create n mode pin => exact .inr (.inr ⟨n, mode, pin, rfl, rfl, rfl⟩)
  | shown bytes => exact .inr (.inl ⟨rfl, bytes, rfl⟩)
  | _ => exact .inl rfl

/-- The fields of a response word are the status code and the data (R42). -/
theorem responseWord_fields (r : Response) :
    (responseWord r).extractLsb' 32 4 = statusCode r.status ∧ (responseWord r).extractLsb' 0 32 = r.data := by
  have hword : (responseWord r).toNat = (statusCode r.status).toNat * 2 ^ 32 + r.data.toNat := toNat_concat _ _
  have := (statusCode r.status).isLt
  have := r.data.isLt
  constructor <;> apply BitVec.eq_of_toNat_eq <;>
    rw [BitVec.extractLsb'_toNat, hword, Nat.shiftRight_eq_div_pow] <;> omega

/-- The codes 4 to 15 are never produced (R43). -/
theorem statusCode_lt_four (status : Status) : (statusCode status).toNat < 4 := by
  cases status <;> decide

/-- Settles O9: the fields of the response word, and the codes as `statusCode` gives them. -/
theorem responseWordHoldsStatusAndData : Obligations.ResponseWordHoldsStatusAndData := by
  unfold Obligations.ResponseWordHoldsStatusAndData
  refine ⟨responseWord_fields, rfl, rfl, rfl, rfl, fun r => ?_⟩
  rw [(responseWord_fields r).1]
  exact statusCode_lt_four r.status

section ResultBits
variable {s u : State} {P : Word → Prop}

/-- If the command completes, it appends one response to those of `s`, with data as `P` says. -/
def RespondsWith (s : State) (P : Word → Prop) (o : Host.Outcome State Fault Refusal) : Prop :=
  ∀ t, o = .next t → ∃ r : Response, t.responses = s.responses ++ [r] ∧ P r.data

/-- Responding once, from a state in which no response was added. -/
theorem respondsWith_respond (hu : u.responses = s.responses) (status : Status) {d : Word} (hd : P d) :
    RespondsWith s P (.next (u.respond status d)) := by
  rintro _ ⟨⟩
  exact ⟨⟨status, d⟩, by rw [respond_responses, hu], hd⟩

/-- Responding with data 0, as every error and every command without a result does (R42, R126). -/
theorem respondsWith_zero (hu : u.responses = s.responses) (status : Status) :
    RespondsWith s (· = 0#32) (.next (u.respond status 0#32)) := respondsWith_respond hu status rfl

theorem respondsWith_storeThenDone (ws : List (Nat × Byte)) : RespondsWith s (· = 0#32) (s.storeThenDone ws) := by
  intro t h
  rw [storeThenDone_next h]
  exact ⟨⟨.ok, 0#32⟩, rfl, rfl⟩

theorem respondsWith_loadThen {as : List Nat} {k : List Byte → Host.Outcome State Fault Refusal}
    (hk : ∀ vs, RespondsWith s P (k vs)) : RespondsWith s P (s.loadThen as k) := by
  intro t h
  obtain ⟨vs, -, h⟩ := loadThen_next h
  exact hk vs t h

theorem respondsWith_loadByteThen {a : Nat} {k : Byte → Host.Outcome State Fault Refusal}
    (hk : ∀ v, RespondsWith s P (k v)) : RespondsWith s P (s.loadByteThen a k) := by
  intro t h
  obtain ⟨v, -, h⟩ := loadByteThen_next h
  exact hk v t h

end ResultBits

/-- The upper bits of a number that fits the lower ones are 0. -/
theorem upper_eq_zero {d : Word} {k len : Nat} (h : d.toNat < 2 ^ k) : d.extractLsb' k len = 0#len := by
  apply BitVec.eq_of_toNat_eq
  rw [BitVec.extractLsb'_toNat, Nat.shiftRight_eq_div_pow, Nat.div_eq_of_lt h, Nat.zero_mod, BitVec.toNat_zero]

/-- A packed colour has 24 bits (R55). -/
theorem packColour_upper (r g b : Int) : (packColour r g b).extractLsb' 24 8 = 0#8 := by
  have hmask : ∀ v : Int, mask8 v < 256 := fun v => by unfold mask8; omega
  have hr := hmask r
  have hg := hmask g
  have hb := hmask b
  have hlt : mask8 r * 65536 + mask8 g * 256 + mask8 b < 2 ^ 24 := by omega
  exact upper_eq_zero (lt_of_le_of_lt (BitVec.toNat_ofNat _ _ ▸ Nat.mod_le _ _) hlt)

/-- A byte is zero-extended (R42). -/
theorem byteData_upper (b : Byte) : (byteData b).extractLsb' 8 24 = 0#24 :=
  upper_eq_zero (lt_of_le_of_lt (BitVec.toNat_ofNat _ _ ▸ Nat.mod_le _ _) b.isLt)

/-- A colour read back from the buffer is a packed colour (R93). -/
theorem packStored_upper (layout : Layout) (b0 b1 b2 : Byte) : (packStored layout b0 b1 b2).extractLsb' 24 8 = 0#8 := by
  cases layout <;> exact packColour_upper _ _ _

/-- CREATE answers data 0, refused or not (R80, R126). -/
theorem execCreate_respondsWith (n : Word) (mode : BitVec 2) (pin : Byte) (s : State) :
    RespondsWith s (· = 0#32) (execCreate n mode pin s) := by
  unfold execCreate
  cases layoutOfCode mode with
  | none => exact respondsWith_zero rfl .illegal
  | some layout =>
    by_cases ha : s.allocFails layout n
    · simp only [if_pos ha]; exact respondsWith_zero rfl .alloc
    · simp only [if_neg ha]; exact respondsWith_zero rfl .ok

/-- SETRANGE answers data 0, refused or not (R81, R126). -/
theorem execSetrange_respondsWith (a b : Word) (s : State) : RespondsWith s (· = 0#32) (execSetrange a b s) := by
  unfold execSetrange
  by_cases hr : s.rangeFails a b
  · rw [if_pos hr]; exact respondsWith_zero rfl .range
  · rw [if_neg hr]; exact respondsWith_zero rfl .ok

/-- SETBR and SETBRP answer data 0 (R82, R83). -/
theorem respondsWith_newBrightness (b : Byte) (s : State) :
    RespondsWith s (· = 0#32) (State.done { s with brightness := b } 0#32) := respondsWith_zero rfl .ok

/-- SETPIX answers data 0, in range or not (R92). -/
theorem execSetpix_respondsWith (index rgb : Word) (s : State) : RespondsWith s (· = 0#32) (execSetpix index rgb s) := by
  unfold execSetpix
  cases s.logicalPixel index with
  | none => exact respondsWith_zero rfl .ok
  | some i => exact respondsWith_storeThenDone _

/-- GETPIX answers a packed colour, or 0 for an index out of range (R93). -/
theorem execGetpix_respondsWith (index : Word) (s : State) :
    RespondsWith s (fun d => d.extractLsb' 24 8 = 0#8) (execGetpix index s) := by
  unfold execGetpix
  cases s.logicalPixel index with
  | none => exact respondsWith_respond rfl .ok rfl
  | some i =>
    exact respondsWith_loadByteThen fun b0 => respondsWith_loadByteThen fun b1 => respondsWith_loadByteThen fun b2 =>
      respondsWith_respond rfl .ok (packStored_upper s.mode b0 b1 b2)

/-- ROTATE answers data 0 (R96). -/
theorem execRotate_respondsWith (offset : Word) (s : State) : RespondsWith s (· = 0#32) (execRotate offset s) :=
  respondsWith_loadThen fun _ => respondsWith_storeThenDone _

/-- SHOW answers data 0 (R97). -/
theorem execShow_respondsWith (s : State) : RespondsWith s (· = 0#32) (execShow s) :=
  respondsWith_loadThen fun _ => respondsWith_zero rfl .ok

/-- Settles O10: command by command, the data it responds with. -/
theorem resultsAreZeroExtended : Obligations.ResultsAreZeroExtended := by
  unfold Obligations.ResultsAreZeroExtended
  intro i s t h
  cases i with
  | pack _ _ _ | hsl _ _ _ =>
    exact respondsWith_respond (P := fun d => d.extractLsb' 24 8 = 0#8) rfl .ok (packColour_upper _ _ _) t h
  | getpix index => exact execGetpix_respondsWith index s t h
  | unpr _ | unpg _ | unpb _ =>
    exact respondsWith_respond (P := fun d => d.extractLsb' 8 24 = 0#24) rfl .ok (byteData_upper _) t h
  | create n mode pin => exact execCreate_respondsWith n mode pin s t h
  | setrange a b => exact execSetrange_respondsWith a b s t h
  | setbr _ | setbrp _ => exact respondsWith_newBrightness _ s t h
  | setpix index rgb => exact execSetpix_respondsWith index rgb s t h
  | fill rgb => exact respondsWith_storeThenDone _ t h
  | clear => exact respondsWith_storeThenDone _ t h
  | rotate k => exact execRotate_respondsWith k s t h
  | showBuf => exact execShow_respondsWith s t h

end Sys2Proof.Machine
end

section
/-! PROOFS. The codec (spec/40_codec.md): PACK puts the low bytes of its channels into lanes (R56), UNPR, UNPG and UNPB take
one lane each (R57 to R59), and the two undo each other (R60). -/

namespace Sys2Proof.Machine

/-- The low byte of a word, as the codec masks it (R6). -/
theorem ofInt_toNat_eq_lowByte {w : Nat} (x : BitVec w) : BitVec.ofInt 8 x.toNat = x.extractLsb' 0 8 := by
  rw [BitVec.ofInt_natCast, BitVec.extractLsb', Nat.shiftRight_zero]

/-- A byte is its own low byte. -/
theorem ofInt_toNat_byte (b : Byte) : BitVec.ofInt 8 b.toNat = b := by
  rw [BitVec.ofInt_natCast, BitVec.ofNat_toNat, BitVec.setWidth_eq]

/-- The number a packed colour stands for, by its lanes (R55). -/
theorem lanes_toNat (r g b : Byte) :
    (0x00#8 ++ r ++ g ++ b : Word).toNat = r.toNat * 65536 + g.toNat * 256 + b.toNat := by
  rw [show (0x00#8 ++ r ++ g ++ b : Word).toNat = (0x00#8 ++ r ++ g ++ b).toNat from rfl, toNat_concat, toNat_concat,
    toNat_concat, BitVec.toNat_zero]
  omega

/-- Packing takes each channel modulo 256 into its own lane (R56). -/
theorem packColour_eq_lanes (r g b : Int) :
    packColour r g b = 0x00#8 ++ BitVec.ofInt 8 r ++ BitVec.ofInt 8 g ++ BitVec.ofInt 8 b := by
  apply BitVec.eq_of_toNat_eq
  rw [lanes_toNat, packColour, BitVec.toNat_ofNat]
  simp only [BitVec.toNat_ofInt, mask8]
  omega

/-- Each unpacking function reads its own lane (R57 to R59). -/
theorem unpack_lanes (r g b : Byte) : unpackRed (0x00#8 ++ r ++ g ++ b) = r ∧
    unpackGreen (0x00#8 ++ r ++ g ++ b) = g ∧ unpackBlue (0x00#8 ++ r ++ g ++ b) = b := by
  refine ⟨?_, ?_, ?_⟩ <;> apply BitVec.eq_of_toNat_eq <;>
    simp only [unpackRed, unpackGreen, unpackBlue, BitVec.toNat_ofNat, lanes_toNat] <;> omega

/-- Unpacking a packed triple gives each channel modulo 256 (R60). -/
theorem unpack_packColour (r g b : Int) : unpackRed (packColour r g b) = BitVec.ofInt 8 r ∧
    unpackGreen (packColour r g b) = BitVec.ofInt 8 g ∧ unpackBlue (packColour r g b) = BitVec.ofInt 8 b := by
  rw [packColour_eq_lanes]
  exact unpack_lanes _ _ _

/-- Packing the three unpacked bytes of a word gives its low 24 bits (R60). -/
theorem packColour_unpack (p : Word) :
    packColour (unpackRed p).toNat (unpackGreen p).toNat (unpackBlue p).toNat = p &&& 0xFFFFFF#32 := by
  rw [packColour_eq_lanes, ofInt_toNat_byte, ofInt_toNat_byte, ofInt_toNat_byte]
  apply BitVec.eq_of_toNat_eq
  rw [lanes_toNat, BitVec.toNat_and, show (0xFFFFFF#32).toNat = 2 ^ 24 - 1 from rfl, Nat.and_two_pow_sub_one_eq_mod]
  simp only [unpackRed, unpackGreen, unpackBlue, BitVec.toNat_ofNat]
  omega

/-- A mask of 24 ones takes every bit of a 24-bit colour (R55). -/
theorem and_colourMask_of_lt {p : Word} (h : p.toNat < 2 ^ 24) : p &&& 0xFFFFFF#32 = p := by
  apply BitVec.eq_of_toNat_eq
  rw [BitVec.toNat_and, show (0xFFFFFF#32).toNat = 2 ^ 24 - 1 from rfl, Nat.and_two_pow_sub_one_of_lt_two_pow h]

/-- A byte answered as data has 24 zeros above it (R42). -/
theorem byteData_eq (b : Byte) : byteData b = 0#24 ++ b := by
  apply BitVec.eq_of_toNat_eq
  rw [show (0#24 ++ b : Word).toNat = (0#24 ++ b).toNat from rfl, toNat_concat, byteData, BitVec.toNat_ofNat,
    BitVec.toNat_zero]
  omega

/-- PACK answers the low bytes of its operands in their lanes, and changes nothing else (R56). -/
theorem exec_pack (red : Word) (green blue : Half) (s : State) : exec (.pack red green blue) s =
    .next (s.respond .ok (0x00#8 ++ red.extractLsb' 0 8 ++ green.extractLsb' 0 8 ++ blue.extractLsb' 0 8)) := by
  rw [exec, execPack, packColour_eq_lanes, ofInt_toNat_eq_lowByte, ofInt_toNat_eq_lowByte, ofInt_toNat_eq_lowByte,
    State.done]

/-- Settles O13: the row of the opcode map, PACK's answer, and the lanes of `packColour`. -/
theorem packMasksEachChannel : Obligations.PackMasksEachChannel := by
  unfold Obligations.PackMasksEachChannel
  exact ⟨fun a d => decode_commandWord 0x01#8 a d, exec_pack, packColour_eq_lanes⟩

/-- UNPR, UNPG and UNPB answer one byte of the operand, zero-extended, and change nothing else (R57 to R59). -/
theorem exec_unpack (packed : Word) (s : State) :
    exec (.unpr packed) s = .next (s.respond .ok (0#24 ++ packed.extractLsb' 16 8)) ∧
    exec (.unpg packed) s = .next (s.respond .ok (0#24 ++ packed.extractLsb' 8 8)) ∧
    exec (.unpb packed) s = .next (s.respond .ok (0#24 ++ packed.extractLsb' 0 8)) := by
  simp only [← unpackRed_eq, ← unpackGreen_eq, ← unpackBlue_eq, ← byteData_eq]
  exact ⟨rfl, rfl, rfl⟩

/-- Settles O14: three rows of the opcode map, and what each of the commands answers. -/
theorem unpackExtractsOneByte : Obligations.UnpackExtractsOneByte := by
  unfold Obligations.UnpackExtractsOneByte
  exact ⟨fun a d => ⟨decode_commandWord 0x02#8 a d, decode_commandWord 0x03#8 a d, decode_commandWord 0x04#8 a d⟩,
    exec_unpack⟩

/-- Settles O15: unpacking gives `BitVec.ofInt 8` of each channel, whose number is the channel modulo 256 and which is the
channel itself for a byte; packing gives the low 24 bits, which are the whole of a 24-bit value. -/
theorem codecRoundTrip : Obligations.CodecRoundTrip := by
  unfold Obligations.CodecRoundTrip
  refine ⟨fun r g b => ?_, fun r g b => ?_, fun p hp => ?_, packColour_unpack⟩
  · have hmod : ∀ v : Int, ((BitVec.ofInt 8 v).toNat : Int) = v % 256 := fun v => by
      rw [BitVec.toNat_ofInt]; omega
    obtain ⟨hr, hg, hb⟩ := unpack_packColour r g b
    rw [hr, hg, hb]
    exact ⟨hmod r, hmod g, hmod b⟩
  · simpa only [ofInt_toNat_byte] using unpack_packColour r.toNat g.toNat b.toNat
  · rw [packColour_unpack, and_colourMask_of_lt hp]

end Sys2Proof.Machine
end

section
/-! PROOFS. The HSL-to-RGB converter (spec/41_hsl.md): each of its steps in the form the rules R66 to R71 explain it in, the
bounds of R73, which all follow from one bound of the chroma by the luminance, and the corner cases of R75. -/

namespace Sys2Proof.Machine

/-! ## The seven steps -/

/-- HSL answers the converted colour and changes nothing else (R65). -/
theorem exec_hsl (hue : Word) (sat lum : Half) (s : State) :
    exec (.hsl hue sat lum) s = .next (s.respond .ok (hslColour hue.toInt sat.toInt lum.toInt)) := rfl

/-- The clamp of R66, by `min` and `max`. -/
theorem hslClamp_eq (v : Int) : hslClamp v = max 0 (min 99 v) := by
  rw [hslClamp, clamp]
  split_ifs <;> omega

/-- A clamped operand is in `[0, 99]` (R66). -/
theorem hslClamp_bounds (v : Int) : 0 ≤ hslClamp v ∧ hslClamp v ≤ 99 := by
  rw [hslClamp_eq]
  omega

/-- The chroma, with its factor `t` as R67 writes it in full. -/
theorem hslChroma_eq (s l : Int) :
    hslChroma s l = (if l ≤ 50 then 2 * l else 200 - 2 * l) * s * 256 / 10000 := by
  have ht : 100 - ((2 * l - 100).natAbs : Int) = if l ≤ 50 then 2 * l else 200 - 2 * l := by
    split_ifs <;> omega
  rw [hslChroma, ht]

/-- The sub-position is read off `h mod 60` (R68). -/
theorem hslSub_eq (h : Int) : hslSub h = h % 60 * 256 / 60 := by
  rw [hslSub, hslSector, ← Int.emod_def]

/-- The sub-position is at most `59 * 256 div 60` (R68). -/
theorem hslSub_bounds (h : Int) : 0 ≤ hslSub h ∧ hslSub h ≤ 251 := by
  rw [hslSub_eq]
  omega

/-- `temp` falls with the sub-position in an even sector and is the sub-position in an odd one (R69). -/
theorem hslTemp_eq (h1 h : Int) : hslTemp h1 (hslSub h) = if h1 % 2 = 0 then 256 - hslSub h else hslSub h := by
  have hsub := hslSub_bounds h
  rw [hslTemp]
  split_ifs <;> omega

theorem hslTemp_bounds (h1 h : Int) : 0 ≤ hslTemp h1 (hslSub h) ∧ hslTemp h1 (hslSub h) ≤ 256 := by
  have hsub := hslSub_bounds h
  rw [hslTemp_eq]
  split_ifs <;> omega

/-- The second-largest component rises in an even sector and falls in an odd one (R69). -/
theorem hslSecond_eq (c h1 h : Int) : hslSecond c (hslTemp h1 (hslSub h)) =
    if h1 % 2 = 0 then c * hslSub h / 256 else c * (256 - hslSub h) / 256 := by
  rw [hslSecond, hslTemp_eq]
  split_ifs
  · rw [sub_sub_cancel]
  · rfl

/-- The sectors are the six ranges of the hue that R70 tabulates. -/
theorem hslPermute_hslSector {h : Int} (h0 : 0 ≤ h) (h360 : h < 360) (c x : Int) : hslPermute (hslSector h) c x =
    if h < 60 then (c, x, 0) else if h < 120 then (x, c, 0) else if h < 180 then (0, c, x)
    else if h < 240 then (0, x, c) else if h < 300 then (x, 0, c) else (c, 0, x) := by
  rw [hslPermute, hslSector]
  exact if_ctx_congr (by omega) (fun _ => rfl) fun _ => if_ctx_congr (by omega) (fun _ => rfl) fun _ =>
    if_ctx_congr (by omega) (fun _ => rfl) fun _ => if_ctx_congr (by omega) (fun _ => rfl) fun _ =>
    if_ctx_congr (by omega) (fun _ => rfl) fun _ => rfl

/-- The channels of R72 packed, sector by sector of R70. -/
theorem packColour_hslPermute {h : Int} (h0 : 0 ≤ h) (h360 : h < 360) (c x m : Int) :
    packColour ((hslPermute (hslSector h) c x).1 + m) ((hslPermute (hslSector h) c x).2.1 + m)
        ((hslPermute (hslSector h) c x).2.2 + m) =
      if h < 60 then packColour (c + m) (x + m) m
      else if h < 120 then packColour (x + m) (c + m) m
      else if h < 180 then packColour m (c + m) (x + m)
      else if h < 240 then packColour m (x + m) (c + m)
      else if h < 300 then packColour (x + m) m (c + m)
      else packColour (c + m) m (x + m) := by
  rw [hslPermute_hslSector h0 h360]
  split_ifs <;> simp only [zero_add]

/-- The offset, with the shift and the factor of R71 as one product. -/
theorem hslOffset_eq (l c : Int) : hslOffset l c = (512 * l / 100 - c) / 2 := by
  rw [hslOffset, show l * 2 * 256 = 512 * l by ring]

/-- Settles O16: the row of the opcode map, and each step of the converter in the form the statement gives it. -/
theorem hslRespondsWithTheConvertedColour : Obligations.HslRespondsWithTheConvertedColour := by
  unfold Obligations.HslRespondsWithTheConvertedColour
  refine ⟨fun a d => decode_commandWord 0x08#8 a d, ?_⟩
  intro hue sat lum s h sv lv c h2 x m hh hsv hlv hc hh2 hx hm
  have hh0 : 0 ≤ h := by omega
  have hh360 : h < 360 := by omega
  rw [← hslHue] at hh
  rw [← hslClamp_eq] at hsv hlv
  rw [← hslChroma_eq] at hc
  rw [← hslSub_eq] at hh2
  rw [hh2, ← hslSector, ← hslSecond_eq] at hx
  rw [← hslOffset_eq] at hm
  rw [← packColour_hslPermute hh0 hh360]
  subst hh hsv hlv hc hx hm
  exact exec_hsl hue sat lum s

/-! ## The bounds of R73 -/

section Bounds
variable {s l : Int} (hs0 : 0 ≤ s) (hs : s ≤ 99) (hl0 : 0 ≤ l) (hl : l ≤ 99)
include hs0 hs hl0 hl

/-- A saturation of at most 99 keeps the chroma below `256 * 99 / 10000` of the factor `t` of R67. Every other bound follows
from this one by linear arithmetic on the luminance. -/
theorem hslChroma_bounds :
    0 ≤ hslChroma s l ∧ 10000 * hslChroma s l ≤ 25344 * (if l ≤ 50 then 2 * l else 200 - 2 * l) := by
  rw [hslChroma_eq]
  have ht : 0 ≤ if l ≤ 50 then 2 * l else 200 - 2 * l := by split_ifs <;> omega
  generalize (if l ≤ 50 then 2 * l else 200 - 2 * l) = t at ht ⊢
  have hlow : 0 ≤ t * s := mul_nonneg ht hs0
  have hhigh : t * s ≤ t * 99 := mul_le_mul_of_nonneg_left hs ht
  omega

theorem hslChroma_le : hslChroma s l ≤ 253 := by
  obtain ⟨-, hc⟩ := hslChroma_bounds hs0 hs hl0 hl
  split_ifs at hc <;> omega

/-- The chroma is at most `L2`, so that the outer division of R71 is of no negative number. -/
theorem hslChroma_le_lightness : hslChroma s l ≤ l * 2 * 256 / 100 := by
  obtain ⟨-, hc⟩ := hslChroma_bounds hs0 hs hl0 hl
  split_ifs at hc <;> omega

theorem hslOffset_bounds : 0 ≤ hslOffset l (hslChroma s l) ∧ hslOffset l (hslChroma s l) ≤ 253 := by
  obtain ⟨hc0, -⟩ := hslChroma_bounds hs0 hs hl0 hl
  have hle := hslChroma_le_lightness hs0 hs hl0 hl
  rw [hslOffset]
  omega

/-- The largest channel fits a byte (R72). -/
theorem hslChroma_add_hslOffset_le : hslChroma s l + hslOffset l (hslChroma s l) ≤ 255 := by
  obtain ⟨-, hc⟩ := hslChroma_bounds hs0 hs hl0 hl
  rw [hslOffset]
  split_ifs at hc <;> omega

/-- Below a luminance of 67 the largest channel is below 255 (R75). From 51 on the bound of the chroma suffices only with
the rounding of `L2` at each luminance. -/
theorem hslChroma_add_hslOffset_lt (h67 : l < 67) : hslChroma s l + hslOffset l (hslChroma s l) < 255 := by
  obtain ⟨-, hc⟩ := hslChroma_bounds hs0 hs hl0 hl
  rw [hslOffset]
  split_ifs at hc with hl50
  · omega
  · rw [not_le] at hl50
    interval_cases l <;> omega

end Bounds

/-- The second-largest component is at most the chroma (R69). -/
theorem hslSecond_bounds {c : Int} (hc : 0 ≤ c) (h1 h : Int) :
    0 ≤ hslSecond c (hslTemp h1 (hslSub h)) ∧ hslSecond c (hslTemp h1 (hslSub h)) ≤ c := by
  obtain ⟨htemp0, htemp⟩ := hslTemp_bounds h1 h
  have hlow : 0 ≤ c * (256 - hslTemp h1 (hslSub h)) := mul_nonneg hc (by omega)
  have hhigh : c * (256 - hslTemp h1 (hslSub h)) ≤ c * 256 := mul_le_mul_of_nonneg_left (by omega) hc
  rw [hslSecond]
  omega

/-- What holds of the chroma, of the second-largest component and of 0 holds of the three that R70 permutes them into. -/
theorem hslPermute_forall {P : Int → Prop} {c x : Int} (hc : P c) (hx : P x) (h0 : P 0) (h1 : Int) :
    P (hslPermute h1 c x).1 ∧ P (hslPermute h1 c x).2.1 ∧ P (hslPermute h1 c x).2.2 := by
  rw [hslPermute]
  split_ifs
  · exact ⟨hc, hx, h0⟩
  · exact ⟨hx, hc, h0⟩
  · exact ⟨h0, hc, hx⟩
  · exact ⟨h0, hx, hc⟩
  · exact ⟨hx, h0, hc⟩
  · exact ⟨hc, h0, hx⟩

/-- In every sector one component is 0 (R70). -/
theorem hslPermute_exists_zero (h1 c x : Int) :
    (hslPermute h1 c x).1 = 0 ∨ (hslPermute h1 c x).2.1 = 0 ∨ (hslPermute h1 c x).2.2 = 0 := by
  rw [hslPermute]
  split_ifs <;> simp only [true_or, or_true]

/-- What holds of every number from the offset to the chroma above it holds of the three channels (R70, R72). -/
theorem hslChannels_forall {P : Int → Prop} {s l : Int} (hc : 0 ≤ hslChroma s l)
    (hP : ∀ v, hslOffset l (hslChroma s l) ≤ v → v ≤ hslChroma s l + hslOffset l (hslChroma s l) → P v) (h : Int) :
    P (hslChannels h s l).1 ∧ P (hslChannels h s l).2.1 ∧ P (hslChannels h s l).2.2 := by
  obtain ⟨hx0, hx⟩ := hslSecond_bounds hc (hslSector h) h
  exact hslPermute_forall (P := fun v => P (v + hslOffset l (hslChroma s l))) (hP _ (by omega) le_rfl)
    (hP _ (by omega) (by omega)) (hP _ (by omega) (by omega)) (hslSector h)

/-- Settles O17: the bounds of the steps, in the order of the table. -/
theorem hslIntermediatesStayInBounds : Obligations.HslIntermediatesStayInBounds := by
  unfold Obligations.HslIntermediatesStayInBounds
  intro h sv lv h0 h359 hs0 hs hl0 hl
  obtain ⟨hc0, -⟩ := hslChroma_bounds hs0 hs hl0 hl
  have hsector : 0 ≤ hslSector h ∧ hslSector h ≤ 5 := by rw [hslSector]; omega
  have hL2 : 0 ≤ lv * 2 * 256 / 100 ∧ lv * 2 * 256 / 100 ≤ 506 := by omega
  have hle := hslChroma_le_lightness hs0 hs hl0 hl
  have hm := hslOffset_bounds hs0 hs hl0 hl
  have htop := hslChroma_add_hslOffset_le hs0 hs hl0 hl
  exact ⟨⟨hc0, hslChroma_le hs0 hs hl0 hl⟩, hsector, hslSub_bounds h, hslTemp_bounds _ h, hslSecond_bounds hc0 _ h, hL2,
    by omega, hm, hslChannels_forall (P := fun v => 0 ≤ v ∧ v ≤ 255) hc0
      (fun v hlow hhigh => ⟨hm.1.trans hlow, hhigh.trans htop⟩) h⟩

/-! ## What the result depends on, and the values it takes -/

/-- The channels of R72 can be read back from the packed colour, modulo 256 (R60). -/
theorem unpack_hslColour (hue sat lum : Int) :
    unpackRed (hslColour hue sat lum) =
      BitVec.ofInt 8 (hslChannels (hslHue hue) (hslClamp sat) (hslClamp lum)).1 ∧
    unpackGreen (hslColour hue sat lum) =
      BitVec.ofInt 8 (hslChannels (hslHue hue) (hslClamp sat) (hslClamp lum)).2.1 ∧
    unpackBlue (hslColour hue sat lum) =
      BitVec.ofInt 8 (hslChannels (hslHue hue) (hslClamp sat) (hslClamp lum)).2.2 := unpack_packColour _ _ _

/-- One channel is the offset alone (R70, R72). -/
theorem hslChannels_exists_offset (h s l : Int) :
    (hslChannels h s l).1 = hslOffset l (hslChroma s l) ∨ (hslChannels h s l).2.1 = hslOffset l (hslChroma s l) ∨
      (hslChannels h s l).2.2 = hslOffset l (hslChroma s l) := by
  simp only [hslChannels, add_eq_right]
  exact hslPermute_exists_zero _ _ _

/-- A channel below 255 is not packed into a byte of 255. -/
theorem ofInt_ne_255 {v : Int} (h0 : 0 ≤ v) (h255 : v < 255) : BitVec.ofInt 8 v ≠ 255#8 := by
  intro h
  have hnat := congrArg BitVec.toNat h
  rw [BitVec.toNat_ofInt, BitVec.toNat_ofNat] at hnat
  omega

/-- Settles O18: the channel that is the offset alone is at most 253; and below a luminance of 67 every channel is below
255. -/
theorem hslNeverReachesWhite : Obligations.HslNeverReachesWhite := by
  unfold Obligations.HslNeverReachesWhite
  intro hue sat lum
  obtain ⟨hs0, hs⟩ := hslClamp_bounds sat
  obtain ⟨hl0, hl⟩ := hslClamp_bounds lum
  obtain ⟨hm0, hm⟩ := hslOffset_bounds hs0 hs hl0 hl
  obtain ⟨hr, hg, hb⟩ := unpack_hslColour hue sat lum
  constructor
  · intro hwhite
    have hoffset := ofInt_ne_255 hm0 (by omega)
    rw [hwhite] at hr hg hb
    obtain h | h | h := hslChannels_exists_offset (hslHue hue) (hslClamp sat) (hslClamp lum)
    · exact hoffset (h ▸ hr.symm)
    · exact hoffset (h ▸ hg.symm)
    · exact hoffset (h ▸ hb.symm)
  · intro hfull
    by_contra hlum
    have h67 : hslClamp lum < 67 := by rw [hslClamp_eq]; omega
    obtain ⟨hc0, -⟩ := hslChroma_bounds hs0 hs hl0 hl
    have htop := hslChroma_add_hslOffset_lt hs0 hs hl0 hl h67
    obtain ⟨hr', hg', hb'⟩ := hslChannels_forall (P := fun v => BitVec.ofInt 8 v ≠ 255#8) hc0
      (fun v hlow hhigh => ofInt_ne_255 (hm0.trans hlow) (hhigh.trans_lt htop)) (hslHue hue)
    rw [hr, hg, hb] at hfull
    obtain h | h | h := hfull
    · exact hr' h
    · exact hg' h
    · exact hb' h

/-- Equal reduced operands have one colour (R66, R74). -/
theorem hslColour_congr {hue hue' sat sat' lum lum' : Int} (hhue : hslHue hue = hslHue hue')
    (hsat : hslClamp sat = hslClamp sat') (hlum : hslClamp lum = hslClamp lum') :
    hslColour hue sat lum = hslColour hue' sat' lum' := by
  rw [hslColour, hslColour, hhue, hsat, hlum]

/-- Settles O19: HSL answers one word for all states, the colour of the operands, which reads them reduced. -/
theorem hslDependsOnReducedOperandsOnly : Obligations.HslDependsOnReducedOperandsOnly := by
  unfold Obligations.HslDependsOnReducedOperandsOnly
  intro hue hue' sat sat' lum lum' hhue hsat hlum
  rw [← hslClamp_eq, ← hslClamp_eq] at hsat hlum
  refine ⟨hslColour hue.toInt sat.toInt lum.toInt, fun s => ⟨exec_hsl hue sat lum s, ?_⟩⟩
  rw [hslColour_congr hhue hsat hlum]
  exact exec_hsl hue' sat' lum' s

/-- Settles O20: the rows of the table, each converted. -/
theorem hslNamedValues : Obligations.HslNamedValues := by
  unfold Obligations.HslNamedValues
  decide

end Sys2Proof.Machine
end

section
/-! PROOFS. Buffer configuration (spec/42_buffer_config.md): what CREATE (R80), SETRANGE (R81), SETBR (R82) and SETBRP (R83)
answer, one equation for each outcome. -/

namespace Sys2Proof.Machine

section Answers
variable {n start length : Word} {mode : BitVec 2} {pin : Byte} {layout : Layout} {s : State}

/-- Every number but the reserved one names a layout (R11, R46). -/
theorem exists_layoutOfCode (h : mode ≠ 3#2) : ∃ layout, layoutOfCode mode = some layout :=
  Option.ne_none_iff_exists'.1 (mt layoutOfCode_eq_none.1 h)

/-- CREATE of a string that fits `CAP` makes it, drives the pin low and answers (OK, 0) (R80). -/
theorem exec_create_of_fits (hl : layoutOfCode mode = some layout) (h : bytesNeeded layout n ≤ s.cap) :
    exec (.create n mode pin) s =
      .next (((s.makeString layout n pin).emit (.pinWrite pin false)).respond .ok 0#32) := by
  simp only [exec, execCreate, hl]
  exact if_neg h.not_gt

/-- CREATE of a string that does not fit `CAP` raises ALLOC (R80, R122). -/
theorem exec_create_of_allocFails (hl : layoutOfCode mode = some layout) (h : s.allocFails layout n) :
    exec (.create n mode pin) s = .next (s.respond .alloc 0#32) := by
  simp only [exec, execCreate, hl]
  exact if_pos h

/-- A new string holds zero at every live address, and no value elsewhere (R80; log 4). -/
theorem byteAt_makeString (s : State) (layout : Layout) (n : Word) (pin : Byte) (a : Nat) :
    (s.makeString layout n pin).byteAt a =
      if a < (s.makeString layout n pin).size.toNat then some 0#8 else none :=
  read_zeroed _ a

/-- SETRANGE sets a window that fits the live buffer and answers (OK, 0) (R81). -/
theorem exec_setrange_of_fits (h : (start.toNat + length.toNat) * s.stride ≤ s.size.toNat) :
    exec (.setrange start length) s =
      .next (State.respond { s with start := start, length := length } .ok 0#32) :=
  if_neg h.not_gt

/-- SETRANGE raises RANGE for a window that does not fit the live buffer (R81, R123). -/
theorem exec_setrange_of_rangeFails (h : s.rangeFails start length) :
    exec (.setrange start length) s = .next (s.respond .range 0#32) :=
  if_pos h

/-- SETBR sets `BRIGHTNESS` to its operand's low byte and answers (OK, 0) (R82). -/
theorem exec_setbr (value : Word) (s : State) : exec (.setbr value) s =
    .next (State.respond { s with brightness := value.extractLsb' 0 8 } .ok 0#32) := by
  rw [← unpackBlue_eq]; rfl

/-- SETBRP sets `BRIGHTNESS` to the low byte of the quotient of R83 and answers (OK, 0). -/
theorem exec_setbrp (percent : Word) (s : State) : exec (.setbrp percent) s =
    .next (State.respond { s with brightness := BitVec.ofNat 8 ((255 * percent.toNat + 50) / 100) } .ok 0#32) :=
  rfl

end Answers

/-- Settles O21: CREATE's row of the opcode map, and the fields of the string CREATE makes when it fits. -/
theorem createMakesAString : Obligations.CreateMakesAString := by
  unfold Obligations.CreateMakesAString
  constructor
  · intro a d hd
    rw [decode_commandWord]
    exact decodeCreate_eq_ok_iff.2 ⟨hd, rfl⟩
  · intro n mode pin s hmode hcap
    obtain ⟨layout, hl⟩ := exists_layoutOfCode hmode
    rw [← bytesNeeded_eq hl] at hcap ⊢
    exact ⟨_, exec_create_of_fits hl hcap, layoutOfCode_eq_some.1 hl, sizeRegister_toNat, rfl, rfl, rfl, rfl,
      byteAt_makeString s layout n pin, rfl, rfl, rfl, rfl⟩

/-- Settles O22: the count of the statement is the count the check of R122 compares with `CAP`. -/
theorem createRefusesWhatDoesNotFit : Obligations.CreateRefusesWhatDoesNotFit := by
  unfold Obligations.CreateRefusesWhatDoesNotFit
  intro n mode pin s hmode hcap
  obtain ⟨layout, hl⟩ := exists_layoutOfCode hmode
  rw [← bytesNeeded_eq hl] at hcap
  exact exec_create_of_allocFails hl hcap

/-- Settles O23: SETRANGE's row of the opcode map, and its two outcomes with the stride written out by the layout. -/
theorem setrangeSetsOrRefusesTheWindow : Obligations.SetrangeSetsOrRefusesTheWindow := by
  unfold Obligations.SetrangeSetsOrRefusesTheWindow
  refine ⟨fun a d => decode_commandWord 0x11#8 a d, fun start length s => ?_⟩
  rw [← stride_eq]
  exact ⟨exec_setrange_of_fits, exec_setrange_of_rangeFails⟩

/-- Settles O24: SETBR's row of the opcode map, and its answer. -/
theorem setbrStoresTheLowByte : Obligations.SetbrStoresTheLowByte := by
  unfold Obligations.SetbrStoresTheLowByte
  exact ⟨fun a d => decode_commandWord 0x12#8 a d, exec_setbr⟩

/-- Settles O25: SETBRP's row of the opcode map, and its answer; the number nearest to the percentage, ties up, is the
quotient of R83. -/
theorem setbrpRoundsHalfUp : Obligations.SetbrpRoundsHalfUp := by
  unfold Obligations.SetbrpRoundsHalfUp
  refine ⟨fun a d => decode_commandWord 0x13#8 a d, fun percent s q hlow hhigh => ?_⟩
  have hq : (255 * percent.toNat + 50) / 100 = q := by omega
  rw [exec_setbrp, hq, State.respond]

end Sys2Proof.Machine
end

section
/-! PROOFS. The pixel commands (spec/43_buffer_pixel.md): scaling (R90), one pixel written and read back (R92, R93), the
window filled (R94), the literal range cleared (R95), rotation and its closure laws (R96, R98), SHOW (R97), and the white
bytes of an RGB_W string, which stay zero through every step (R91, D23). -/

namespace Sys2Proof.Machine

/-! ## White bytes -/

section WhiteBytes
variable {s t : State} {i : Instr}

/-- The white-byte invariant speaks of the layout and the buffer alone. -/
theorem State.WhiteZero.of_eq (hz : s.WhiteZero) (hmode : t.mode = s.mode) (hbuf : t.buf = s.buf) : t.WhiteZero := by
  intro hm p v hv
  rw [State.byteAt, hbuf] at hv
  exact hz (hmode ▸ hm) p v hv

/-- The white bytes of an RGB_W string are the addresses 3 modulo 4 (R91). -/
theorem State.WhiteZero.eq_zero (hz : s.WhiteZero) (hm : s.mode = .rgbW) {a : Nat} {v : Byte} (ha : a % 4 = 3)
    (hv : Memory.read s.buf a = some v) : v = 0#8 := by
  have hpixel : a = 4 * (a / 4) + 3 := by omega
  rw [hpixel] at hv
  exact hz hm (a / 4) v hv

/-- Window writes keep the white bytes zero: what they put there is zero or another white byte. -/
theorem State.WhiteZero.writeAll (hz : s.WhiteZero) {ws : List (Nat × Byte)} (hw : ∀ w ∈ ws, WindowWrite s w) :
    State.WhiteZero { s with buf := Memory.writeAll s.buf ws } := by
  intro hm p v hv
  rcases read_writeAll_cases s.buf ws (4 * p + 3) with hkept | ⟨w, hmem, haddr, hwritten⟩
  · exact hz hm p v (hkept.symm.trans hv)
  · obtain rfl : w.2 = v := Option.some.inj (hwritten.symm.trans hv)
    rcases (hw w hmem).2 hm (by omega) with hzero | ⟨b, hb, hsource⟩
    · exact hzero
    · exact hz.eq_zero hm hb hsource

/-- Every byte of a new string is zero, the white ones too (R80). -/
theorem makeString_whiteZero (s : State) (layout : Layout) (n : Word) (pin : Byte) :
    (s.makeString layout n pin).WhiteZero := by
  intro _ p v hv
  rw [byteAt_makeString] at hv
  split_ifs at hv
  exact (Option.some.inj hv).symm

/-- A command keeps the white bytes zero. -/
theorem Effect.whiteZero (h : Effect s i t) (hz : s.WhiteZero) : t.WhiteZero := by
  cases h with
  | create n mode pin layout => exact (makeString_whiteZero s layout n pin).of_eq rfl rfl
  | store _ ws _ hw => exact (hz.writeAll hw).of_eq rfl rfl
  | answer | illegal | alloc | range | window | setbr | setbrp | shown => exact hz.of_eq rfl rfl

end WhiteBytes

/-- Settles O46: a step that completes has one of the effects of `step_effect`, each of which keeps the white bytes zero. -/
theorem everyStepKeepsWhiteBytesZero : Obligations.EveryStepKeepsWhiteBytesZero := by
  unfold Obligations.EveryStepKeepsWhiteBytesZero
  intro s t hz h
  obtain ⟨-, rfl⟩ | ⟨w, ws, -, ⟨i, -, he⟩ | ⟨-, rfl⟩⟩ := step_effect h
  · exact hz
  · exact he.whiteZero (hz.of_eq rfl rfl)
  · exact hz.of_eq rfl rfl

/-! ## Scaling -/

/-- Below full brightness a scaled channel is a product of bytes divided by 256, which is at most `255 * 254 / 256` (R90). -/
theorem scaleChannel_toNat {br : Byte} (ch : Byte) (h : br ≠ 255#8) :
    (scaleChannel br ch).toNat = ch.toNat * br.toNat / 256 ∧ ch.toNat * br.toNat / 256 ≤ 253 := by
  have hbr : br.toNat ≤ 254 := by bv_omega
  have hprod : ch.toNat * br.toNat ≤ 255 * 254 := Nat.mul_le_mul (Nat.le_of_lt_succ ch.isLt) hbr
  refine ⟨?_, by omega⟩
  rw [scaleChannel, if_neg h, BitVec.toNat_ofNat]
  omega

/-- Settles O26: the branch at 255, and the product below it, bounded by `scaleChannel_toNat`. -/
theorem scalingFollowsBrightness : Obligations.ScalingFollowsBrightness := by
  unfold Obligations.ScalingFollowsBrightness
  refine ⟨fun _ => if_pos rfl, fun br ch h => ?_, fun ch => ?_, by decide, by decide⟩
  · obtain ⟨hvalue, hbound⟩ := scaleChannel_toNat ch h
    rw [hvalue]
    exact ⟨(Nat.shiftRight_eq_div_pow _ 8).symm, hbound⟩
  · apply BitVec.eq_of_toNat_eq
    rw [(scaleChannel_toNat ch (by decide)).1]
    simp

/-! ## One pixel -/

section OnePixel
variable {rgb : Word} {r g b : Byte}

/-- The bytes after `WritePixel` (R91): the channels in the order of the layout, every other byte as before. -/
theorem read_writeAll_pixelWrites (m : Memory) (s : State) (p : Nat)
    (hr : r = scaleChannel s.brightness (rgb.extractLsb' 16 8)) (hg : g = scaleChannel s.brightness (rgb.extractLsb' 8 8))
    (hb : b = scaleChannel s.brightness (rgb.extractLsb' 0 8)) {m' : Memory}
    (hm : m' = Memory.writeAll m (s.pixelWrites p rgb)) :
    Memory.read m' (s.pixelOffset p) = some (if s.mode = .rgbAlt then r else g) ∧
    Memory.read m' (s.pixelOffset p + 1) = some (if s.mode = .rgbAlt then g else r) ∧
    Memory.read m' (s.pixelOffset p + 2) = some b ∧
    ∀ a, (a < s.pixelOffset p ∨ s.pixelOffset p + 3 ≤ a) → Memory.read m' a = Memory.read m a := by
  rw [pixelWrites_eq s p rgb hr hg hb] at hm
  exact read_threeBytes m _ _ _ _ hm

/-- The stored bytes in `0xRRGGBB` order, by the layout (R93). -/
theorem packStored_eq_lanes (layout : Layout) (b0 b1 b2 : Byte) : packStored layout b0 b1 b2 =
    if layout = .rgbAlt then 0#8 ++ b0 ++ b1 ++ b2 else 0#8 ++ b1 ++ b0 ++ b2 := by
  cases layout <;> simp only [packStored, packColour_eq_lanes, ofInt_toNat_byte] <;> rfl

/-- Reading back undoes the placement of the channels in every layout (R91, R93). -/
theorem packStored_placed (layout : Layout) (r g b : Byte) :
    packStored layout (if layout = .rgbAlt then r else g) (if layout = .rgbAlt then g else r) b =
      0#8 ++ r ++ g ++ b := by
  rw [packStored_eq_lanes]
  split_ifs <;> rfl

end OnePixel

/-- Settles O27: SETPIX's row of the opcode map, the bytes of one pixel write, and the no-op out of range. -/
theorem setpixWritesOnePixel : Obligations.SetpixWritesOnePixel := by
  unfold Obligations.SetpixWritesOnePixel
  refine ⟨fun a d => decode_commandWord 0x14#8 a d, ?_, ?_⟩
  · rintro index rgb s hi h0 h1 _ r g b rfl hr hg hb
    refine ⟨_, exec_setpix hi (logicalPixel_of_range h0 h1), rfl, ?_⟩
    exact read_writeAll_pixelWrites s.buf s _ hr hg hb rfl
  · exact fun index rgb s h => (exec_of_logicalPixel_eq_none (logicalPixel_of_not_range h)).1 rgb

/-- Settles O28: GETPIX's row of the opcode map, the three bytes it packs, and the no-op out of range. -/
theorem getpixReadsOnePixel : Obligations.GetpixReadsOnePixel := by
  unfold Obligations.GetpixReadsOnePixel
  refine ⟨fun a d => decode_commandWord 0x15#8 a d, ?_, ?_⟩
  · intro index s hi h0 h1 o ho
    obtain ⟨b0, b1, b2, hb0, hb1, hb2, hexec⟩ := exec_getpix hi (logicalPixel_of_range h0 h1) ho
    rw [packStored_eq_lanes] at hexec
    exact ⟨b0, b1, b2, hb0, hb1, hb2, hexec⟩
  · exact fun index s h => (exec_of_logicalPixel_eq_none (logicalPixel_of_not_range h)).2

/-- Settles O29: SETPIX keeps the invariant and the window, so GETPIX reads the three bytes just written, and packing them
undoes their placement. -/
theorem getpixReturnsTheScaledColourWritten : Obligations.GetpixReturnsTheScaledColourWritten := by
  unfold Obligations.GetpixReturnsTheScaledColourWritten
  intro index rgb s hi h0 h1
  have hlogical := logicalPixel_of_range h0 h1
  have hset := exec_setpix (rgb := rgb) hi hlogical
  obtain ⟨hw0, hw1, hw2, -⟩ := read_writeAll_pixelWrites (rgb := rgb) s.buf s (index.toInt.toNat + s.start.toNat)
    rfl rfl rfl rfl
  obtain ⟨b0, b1, b2, hb0, hb1, hb2, hget⟩ :=
    exec_getpix ((exec_effect hset).inv hi nofun) (show State.logicalPixel _ index = _ from hlogical) rfl
  obtain rfl := Option.some.inj (hw0.symm.trans hb0)
  obtain rfl := Option.some.inj (hw1.symm.trans hb1)
  obtain rfl := Option.some.inj (hw2.symm.trans hb2)
  refine ⟨_, _, hset, hget, ?_⟩
  rw [respond_responses, ← packStored_placed s.mode]
  rfl

/-! ## FILL and CLEAR -/

section FillClear
variable {s : State} {rgb : Word} {p q : Nat} {w w' : Nat × Byte}

/-- FILL writes every pixel of the window (R94). -/
theorem mem_fillWrites_of_pixel (hlo : s.start.toNat ≤ p) (hhi : p < s.start.toNat + s.length.toNat)
    (hw : w ∈ s.pixelWrites p rgb) : w ∈ s.fillWrites rgb := by
  simp only [State.fillWrites, List.mem_flatMap, List.mem_range]
  refine ⟨p - s.start.toNat, by omega, ?_⟩
  rwa [Nat.add_sub_cancel' hlo]

/-- Two pixel writes of one colour to one address write one value: the address tells the pixel and the byte of it. -/
theorem pixelWrites_functional (hw : w ∈ s.pixelWrites p rgb) (hw' : w' ∈ s.pixelWrites q rgb) (h : w.1 = w'.1) :
    w.2 = w'.2 := by
  obtain ⟨c, hc, hwc⟩ := mem_pixelWrites hw
  obtain ⟨c', hc', hwc'⟩ := mem_pixelWrites hw'
  have hstride : 3 ≤ s.stride := by rcases stride_cases s with h | h <;> omega
  obtain ⟨rfl, -⟩ := pixelAddress_inj (st := s.stride) (by omega) (by omega) (hwc.symm.trans (h.trans hwc'))
  have hdistinct : ((s.pixelWrites p rgb).map Prod.fst).Nodup := by simp [pixelWrites_eq s p rgb rfl rfl rfl]
  exact congrArg Prod.snd (List.inj_on_of_nodup_map hdistinct hw hw' h)

/-- After FILL each byte of a pixel write of the window holds the value written. -/
theorem read_writeAll_fillWrites (m : Memory) (hlo : s.start.toNat ≤ p) (hhi : p < s.start.toNat + s.length.toNat)
    (hw : w ∈ s.pixelWrites p rgb) : Memory.read (Memory.writeAll m (s.fillWrites rgb)) w.1 = some w.2 := by
  refine read_writeAll_eq _ _ (mem_fillWrites_of_pixel hlo hhi hw) fun w' hw' h => ?_
  obtain ⟨i, -, hpixel⟩ := List.mem_flatMap.1 hw'
  exact pixelWrites_functional hpixel hw h

/-- FILL writes neither outside the window nor a white byte (R94). -/
theorem read_writeAll_fillWrites_other (m : Memory) {a : Nat} (ha : ¬s.inWindow a ∨ (s.mode = .rgbW ∧ a % 4 = 3)) :
    Memory.read (Memory.writeAll m (s.fillWrites rgb)) a = Memory.read m a := by
  refine read_writeAll_other _ _ fun w hw haddr => ?_
  obtain ⟨i, c, hi, hc, he⟩ := mem_fillWrites hw
  rcases ha with hout | ⟨hm, hwhite⟩
  · exact hout (haddr ▸ (windowWrite_pixel hi hc he).1)
  · rw [stride_of_rgbW hm] at he
    omega

/-- After CLEAR the literal range is zero and every other byte is as before (R95). -/
theorem read_writeAll_clearWrites (m : Memory) (s : State) (a : Nat) :
    Memory.read (Memory.writeAll m s.clearWrites) a =
      if s.start.toNat * s.stride ≤ a ∧ a < s.length.toNat * s.stride then some 0#8 else Memory.read m a := by
  split_ifs with h
  · exact read_writeAll_eq _ _ (mem_clearWrites.2 ⟨h.1, h.2, rfl⟩) fun w hw _ => (mem_clearWrites.1 hw).2.2
  · refine read_writeAll_other _ _ ?_
    rintro w hw rfl
    obtain ⟨hlo, hhi, -⟩ := mem_clearWrites.1 hw
    exact h ⟨hlo, hhi⟩

end FillClear

/-- Settles O30: FILL's row of the opcode map; the three writes of each pixel of the window, and what lies outside them. -/
theorem fillWritesTheWindow : Obligations.FillWritesTheWindow := by
  unfold Obligations.FillWritesTheWindow
  refine ⟨fun a d => decode_commandWord 0x16#8 a d, fun rgb s hi r g b hr hg hb => ?_⟩
  refine ⟨_, exec_fill hi rgb, rfl, fun p hlo hhi => ?_, fun a => read_writeAll_fillWrites_other s.buf⟩
  have hread := fun w hw => read_writeAll_fillWrites (rgb := rgb) (w := w) s.buf hlo hhi hw
  simp only [pixelWrites_eq s p rgb hr hg hb, List.forall_mem_cons] at hread
  obtain ⟨h0, h1, h2, -⟩ := hread
  exact ⟨h0, h1, h2⟩

/-- Settles O31: CLEAR's row of the opcode map, and the bytes after its writes. -/
theorem clearZeroesItsLiteralRange : Obligations.ClearZeroesItsLiteralRange := by
  unfold Obligations.ClearZeroesItsLiteralRange
  refine ⟨fun a d => decode_commandWord 0x17#8 a d, fun s hi => ?_⟩
  exact ⟨_, exec_clear hi, rfl, read_writeAll_clearWrites s.buf s⟩

/-! ## ROTATE -/

/-- `t` holds the string of `s` with the pixels of the window moved by `k` modulo `LENGTH` (R96). -/
structure State.Rotated (s : State) (k : Int) (t : State) : Prop where
  /-- Nothing but the buffer differs, and the responses given. -/
  frame : t = { s with buf := t.buf, responses := t.responses }
  /-- The live addresses hold a value. -/
  live : t.buf.map Prod.fst = List.range s.size.toNat
  /-- Byte `c` of logical pixel `j` comes from byte `c` of logical pixel `(j - k) mod LENGTH`. -/
  moved : ∀ j c, j < s.length.toNat → c < s.stride → t.byteAt ((s.start.toNat + j) * s.stride + c) =
    s.byteAt ((s.start.toNat + (((j : Int) - k) % (s.length.toNat : Int)).toNat) * s.stride + c)
  /-- Outside the window every byte is as before. -/
  kept : ∀ a, ¬s.inWindow a → t.byteAt a = s.byteAt a

section Rotate
variable {s t u : State} {k l : Int}

/-- No two moves of ROTATE have one target: the target tells the pixel and the byte of it. -/
theorem rotateMoves_functional {m m' : Nat × Nat} (hm : m ∈ s.rotateMoves k) (hm' : m' ∈ s.rotateMoves k)
    (h : m.1 = m'.1) : m = m' := by
  obtain ⟨j, c, -, hc, rfl⟩ := mem_rotateMoves.1 hm
  obtain ⟨j', c', -, hc', rfl⟩ := mem_rotateMoves.1 hm'
  obtain ⟨hpixel, rfl⟩ := pixelAddress_inj hc hc' h
  obtain rfl := Nat.add_left_cancel hpixel
  rfl

/-- After the writes of ROTATE the target of each move holds what its source held. -/
theorem read_writeAll_rotate (hi : s.Inv) {ws : List (Nat × Byte)}
    (hws : ∀ w, w ∈ ws ↔ ∃ m ∈ s.rotateMoves k, w.1 = m.1 ∧ Memory.read s.buf m.2 = some w.2)
    {m : Nat × Nat} (hm : m ∈ s.rotateMoves k) :
    Memory.read (Memory.writeAll s.buf ws) m.1 = Memory.read s.buf m.2 := by
  obtain ⟨j, c, hj, hc, rfl⟩ := mem_rotateMoves.1 hm
  have hlive := hi.window_live (inWindow_pixel (s := s) (rotate_source_lt k hj) hc)
  obtain ⟨v, hv⟩ := Option.isSome_iff_exists.1 ((hi.isSome_iff _).2 hlive)
  rw [hv]
  refine read_writeAll_eq _ _ ((hws _).2 ⟨_, hm, rfl, hv⟩) fun w hw haddr => ?_
  obtain ⟨m', hm', htarget, hsource⟩ := (hws w).1 hw
  obtain rfl := rotateMoves_functional hm' hm (htarget.symm.trans haddr)
  exact Option.some.inj (hsource.symm.trans hv)

/-- ROTATE rotates the window by its signed offset and answers (OK, 0) (R96). -/
theorem exec_rotate_rotated (hi : s.Inv) (offset : Word) : ∃ t, exec (.rotate offset) s = .next t ∧
    t = { s with buf := t.buf, responses := s.responses ++ [⟨.ok, 0#32⟩] } ∧ s.Rotated offset.toInt t := by
  obtain ⟨ws, hexec, hws⟩ := exec_rotate hi offset
  have hwindow : ∀ w ∈ ws, s.inWindow w.1 := fun w hw => by
    obtain ⟨m, hm, htarget, hsource⟩ := (hws w).1 hw
    exact (windowWrite_rotate hm htarget hsource).1
  refine ⟨_, hexec, rfl, rfl, ?live, ?moved, ?kept⟩
  case live => exact hi.keys_writeAll fun w hw => hi.window_live (hwindow w hw)
  case moved => exact fun j c hj hc => read_writeAll_rotate hi hws (mem_rotateMoves.2 ⟨j, c, hj, hc, rfl⟩)
  case kept =>
    intro a ha
    refine read_writeAll_other _ _ ?_
    rintro w hw rfl
    exact ha (hwindow w hw)

/-- A rotation leaves the window and the stride. -/
theorem State.Rotated.window (h : s.Rotated k t) :
    t.start = s.start ∧ t.length = s.length ∧ t.size = s.size ∧ t.stride = s.stride := by
  rw [h.frame]
  exact ⟨rfl, rfl, rfl, rfl⟩

theorem State.Rotated.inWindow_iff (h : s.Rotated k t) (a : Nat) : t.inWindow a ↔ s.inWindow a := by
  obtain ⟨hstart, hlength, -, hstride⟩ := h.window
  rw [State.inWindow, State.inWindow, hstart, hlength, hstride]

theorem State.Rotated.inv (h : s.Rotated k t) (hi : s.Inv) : t.Inv := by
  rw [h.frame]
  exact ⟨hi.sizeFits, hi.sizeMultiple, hi.windowFits, hi.modeLegal, h.live⟩

/-- The rotation by nothing. -/
theorem State.Rotated.refl (hi : s.Inv) : s.Rotated 0 s where
  frame := rfl
  live := hi.liveBytes
  moved j c hj _ := by
    rw [Int.sub_zero, Int.emod_eq_of_lt (Int.natCast_nonneg j) (by omega), Int.toNat_natCast]
  kept _ _ := rfl

/-- Offsets that are congruent modulo `LENGTH` rotate alike. -/
theorem State.Rotated.congr (h : s.Rotated k t) (hk : k % (s.length.toNat : Int) = l % (s.length.toNat : Int)) :
    s.Rotated l t where
  frame := h.frame
  live := h.live
  moved j c hj hc := by rw [h.moved j c hj hc, Int.sub_emod, hk, ← Int.sub_emod]
  kept := h.kept

/-- The source of the source of a pixel is its source under the sum of the offsets. -/
theorem rotate_source_source {n j : Nat} (hj : j < n) (k l : Int) :
    ((((((j : Int) - l) % (n : Int)).toNat : Int) - k) % (n : Int)).toNat = (((j : Int) - (k + l)) % (n : Int)).toNat := by
  have hn : (n : Int) ≠ 0 := by omega
  rw [Int.toNat_of_nonneg (Int.emod_nonneg _ hn), Int.emod_sub_emod, Int.sub_sub, Int.add_comm l k]

/-- Two rotations are one by the sum of their offsets (R98). -/
theorem State.Rotated.trans (h : s.Rotated k t) (h' : t.Rotated l u) : s.Rotated (k + l) u := by
  obtain ⟨hstart, hlength, hsize, hstride⟩ := h.window
  refine ⟨?frame, hsize ▸ h'.live, ?moved, ?kept⟩
  case frame => rw [h'.frame, h.frame]
  case moved =>
    intro j c hj hc
    have hsecond := h'.moved j c (hlength ▸ hj) (hstride ▸ hc)
    rw [hstart, hlength, hstride] at hsecond
    rw [hsecond, h.moved _ c (rotate_source_lt l hj) hc, rotate_source_source hj]
  case kept => exact fun a ha => (h'.kept a (mt (h.inWindow_iff a).1 ha)).trans (h.kept a ha)

/-- The offset determines the rotated buffer. -/
theorem State.Rotated.buf_unique (h : s.Rotated k t) (h' : s.Rotated k u) : t.buf = u.buf := by
  refine eq_of_read_eq h.live h'.live fun a _ => ?_
  by_cases ha : s.inWindow a
  · obtain ⟨j, c, hj, hc, rfl⟩ := inWindow_decompose ha
    exact (h.moved j c hj hc).trans (h'.moved j c hj hc).symm
  · exact (h.kept a ha).trans (h'.kept a ha).symm

end Rotate

/-- Settles O32: ROTATE's row of the opcode map, and the rotation it performs. -/
theorem rotateMovesWholePixels : Obligations.RotateMovesWholePixels := by
  unfold Obligations.RotateMovesWholePixels
  refine ⟨fun a d => decode_commandWord 0x18#8 a d, fun offset s hi => ?_⟩
  obtain ⟨t, hexec, hframe, hrot⟩ := exec_rotate_rotated hi offset
  exact ⟨t, hexec, hframe, hrot.moved, hrot.kept⟩

/-- Settles O33: the two rotations are one by the sum of the offsets, and the sum is congruent to the third offset. -/
theorem rotationsCompose : Obligations.RotationsCompose := by
  unfold Obligations.RotationsCompose
  intro k1 k2 k3 s hi hsum
  obtain ⟨t, ht, -, hrot1⟩ := exec_rotate_rotated hi k1
  obtain ⟨u, hu, -, hrot2⟩ := exec_rotate_rotated (hrot1.inv hi) k2
  obtain ⟨v, hv, -, hrot3⟩ := exec_rotate_rotated hi k3
  exact ⟨t, u, v, ht, hu, hv, ((hrot1.trans hrot2).congr hsum).buf_unique hrot3⟩

/-- A host sequence that begins with one command runs the rest from what the command answers. -/
theorem runHost_issue_cons {s t : State} {i : Instr} (hwf : i.wf = true) (h : exec i s = .next t)
    (es : List HostEntry) : runHost (.issue i :: es) s = runHost es t := by
  rw [runHost, runEntry, issue, step_present_encode s hwf, h, andThen]

/-- ROTATE 1, issued `m` times, rotates by `m`. -/
theorem runHost_replicate_rotate (m : Nat) : ∀ {s : State}, s.Inv →
    ∃ t, runHost (List.replicate m (.issue (.rotate 1#32))) s = .next t ∧ s.Rotated m t := by
  induction m with
  | zero => exact fun hi => ⟨_, rfl, .refl hi⟩
  | succ m ih =>
    intro s hi
    obtain ⟨t, ht, -, hfirst⟩ := exec_rotate_rotated hi 1#32
    obtain ⟨u, hu, hrest⟩ := ih (hfirst.inv hi)
    refine ⟨u, ?_, ?_⟩
    · rw [List.replicate_succ, runHost_issue_cons rfl ht, hu]
    · rw [Nat.cast_succ, Int.add_comm]
      exact hfirst.trans hrest

/-- Settles O34: `LENGTH` is congruent to 0, and the rotation by 0 is the buffer itself. -/
theorem rotateByOneLengthTimesIsTheIdentity : Obligations.RotateByOneLengthTimesIsTheIdentity := by
  unfold Obligations.RotateByOneLengthTimesIsTheIdentity
  intro s hi
  obtain ⟨t, ht, hrot⟩ := runHost_replicate_rotate s.length.toNat hi
  have hzero : s.Rotated 0 t := hrot.congr (by rw [Int.emod_self, Int.zero_emod])
  exact ⟨t, ht, hzero.buf_unique (.refl hi)⟩

/-! ## SHOW -/

/-- A list whose entries are the first `n` values of `f` has length `n` and those values, by index. -/
theorem getElem?_of_map_some_eq {α : Type} {bytes : List α} {n : Nat} {f : Nat → Option α}
    (h : bytes.map some = (List.range n).map f) : bytes.length = n ∧ ∀ a, a < n → bytes[a]? = f a := by
  have hlength : bytes.length = n := by simpa using congrArg List.length h
  refine ⟨hlength, fun a ha => ?_⟩
  have hentry := congrArg (·[a]?) h
  simpa [hlength, ha] using hentry

/-- Settles O35: SHOW's row of the opcode map, and the bytes it loads from the live addresses. -/
theorem showTransmitsTheLiveBytes : Obligations.ShowTransmitsTheLiveBytes := by
  unfold Obligations.ShowTransmitsTheLiveBytes
  refine ⟨fun a d => decode_commandWord 0x19#8 a d, fun s hi => ?_⟩
  obtain ⟨bytes, hbytes, hexec⟩ := exec_showBuf hi
  obtain ⟨hlength, hread⟩ := getElem?_of_map_some_eq hbytes
  exact ⟨bytes, hlength, hread, hexec⟩

end Sys2Proof.Machine
end

section
/-! PROOFS. The host sequences (spec/44_host_sequences.md): `create` (R106), the controller's operations that end in a
transmit (R107, R110, R111), and the rainbow (R113 to R117) as one list of pixel writes. -/

namespace Sys2Proof.Machine

/-! ## The controller -/

/-- The public path's default layouts have stride 3: RGB_W is excluded (R5, D13). -/
theorem strideOf_defaultMode (c : Config.HostDefaults) : strideOf c.mode = 3 := by
  unfold Config.HostDefaults.mode
  split_ifs <;> rfl

/-- Settles O49: the sequence is one CREATE, which fits; below 2^32 its pixel count and its byte count are exact. -/
theorem hostCreateMakesAThreeByteString : Obligations.HostCreateMakesAThreeByteString := by
  unfold Obligations.HostCreateMakesAThreeByteString
  intro c n s hcap h32
  have hwf : (asmCreate n c.mode c.pin).wf = true := bne_iff_ne.2 (layoutCode_ne_reserved c.mode)
  have hcount : (BitVec.ofNat 32 n).toNat = n := by
    rw [BitVec.toNat_ofNat, Nat.mod_eq_of_lt (by omega)]
  have hbytes : bytesNeeded c.mode (BitVec.ofNat 32 n) = n * 3 := by
    rw [bytesNeeded, hcount, strideOf_defaultMode]
  have hexec := exec_create_of_fits (pin := c.pin) (layoutOfCode_eq_some.2 rfl) (hbytes.trans_le hcap)
  have hsize : (s.makeString c.mode (BitVec.ofNat 32 n) c.pin).size.toNat = n * 3 := by
    rw [makeString_size, hbytes, sizeRegister_toNat h32]
  refine ⟨_, runHost_issue_cons hwf hexec [], strideOf_defaultMode c, rfl, hsize, rfl, hcount, rfl, rfl, ?_, rfl⟩
  intro a ha
  exact (byteAt_makeString s c.mode _ c.pin a).trans (if_pos (hsize.symm ▸ ha))

/-- `show()` transmits the live bytes of a state with the invariant (R97, R109). -/
theorem runHost_hostShow {s : State} (hi : s.Inv) : ∃ bytes : List Byte, bytes.length = s.size.toNat ∧
    (∀ a, a < s.size.toNat → bytes[a]? = s.byteAt a) ∧
    runHost hostShow s = .next { s with responses := s.responses ++ [⟨.ok, 0#32⟩]
                                        events := s.events ++ [.transmit s.pin bytes] } := by
  obtain ⟨bytes, hlength, hread, hexec⟩ := showTransmitsTheLiveBytes.2 s hi
  exact ⟨bytes, hlength, hread, runHost_issue_cons rfl hexec []⟩

/-- A command other than CREATE, followed by SHOW, transmits the buffer the command leaves: the command keeps the invariant
and the pin. -/
theorem runHost_issue_hostShow {s : State} (hi : s.Inv) {i : Instr} (hwf : i.wf = true)
    (hc : ∀ n m p, i ≠ .create n m p) :
    ∃ (u : State) (bytes : List Byte), exec i s = .next u ∧ bytes.length = u.size.toNat ∧
      (∀ a, a < u.size.toNat → bytes[a]? = u.byteAt a) ∧
      runHost (.issue i :: hostShow) s = .next { u with responses := u.responses ++ [⟨.ok, 0#32⟩]
                                                        events := u.events ++ [.transmit s.pin bytes] } := by
  obtain ⟨u, hexec⟩ := hi.exec_completes i
  have heffect := exec_effect hexec
  have hinv : u.Inv := heffect.inv hi fun n m p he => absurd he (hc n m p)
  obtain ⟨-, -, hpin⟩ := heffect.mode_size_pin hc
  obtain ⟨bytes, hlength, hread, hshow⟩ := runHost_hostShow hinv
  refine ⟨u, bytes, hexec, hlength, hread, ?_⟩
  rw [runHost_issue_cons hwf hexec, hshow, hpin]

/-- Settles O50: each of the three sequences is one command other than CREATE, followed by SHOW. -/
theorem controllerOperationsTransmitTheirResult : Obligations.ControllerOperationsTransmitTheirResult := by
  unfold Obligations.ControllerOperationsTransmitTheirResult
  intro s hi rgb offset
  simp only [List.forall_mem_cons]
  exact ⟨runHost_issue_hostShow hi rfl nofun, runHost_issue_hostShow hi rfl nofun,
    runHost_issue_hostShow hi rfl nofun, nofun⟩

/-! ## The rainbow as a list of pixels -/

/-- The hue of pixel `i` of a rainbow of `n` pixels (R115, R116; D24). -/
def rainbowHue (n i : Nat) : Int :=
  if n = 1 then 35901 else if i = 0 then 1 else if i + 1 = n then 360
  else (100 + (i : Int) * (35900 / (n : Int))) / 100 + 360

/-- The colour of pixel `i` of a rainbow of `n` pixels. -/
def rainbowColour (n i : Nat) : Word := hslColour (rainbowHue n i) 100 50

/-- The two commands that colour pixel `i` of a rainbow of `n` pixels. -/
def rainbowPixel (n i : Nat) : HostEntry := .colourPixel (rainbowHue n i) 100 50 i

/-- Saturation and luminance have the same value at both ends of the rainbow, so their steps are 0. -/
theorem rainbowRamp_interiorPixel (steps i : Int) : rainbowRamp.interiorPixel steps i =
    .colourPixel ((100 + i * (35900 / steps)) / 100 + 360) 100 50 i := by
  simp [Ramp.interiorPixel, Ramp.hueStep, Ramp.satStep, Ramp.lumStep, rainbowRamp]

/-- A ramp of two or more steps colours the first pixel, the interior ones and the last, one after another (R116). -/
theorem rainbowRamp_pixels (m : Nat) :
    rainbowRamp.pixels (m + 2) = (List.range (m + 2)).map (rainbowPixel (m + 2)) := by
  have hinterior : ∀ j ∈ List.range m,
      rainbowRamp.interiorPixel ((m + 2 : Nat) : Int) ((j : Int) + 1) = rainbowPixel (m + 2) (j + 1) := fun j hj => by
    have hne : j ≠ m := (List.mem_range.1 hj).ne
    simp [rainbowRamp_interiorPixel, rainbowPixel, rainbowHue, hne]
  have hlast : .colourPixel 360 100 50 (((m + 2 : Nat) : Int) - 1) = rainbowPixel (m + 2) (m + 1) := by
    rw [rainbowPixel, rainbowHue, if_neg (by omega), if_neg (by omega), if_pos rfl]
    exact congrArg _ (by omega)
  rw [Ramp.pixels, Nat.add_sub_cancel, List.map_congr_left hinterior, List.range_succ_eq_map, List.range_succ]
  simp only [List.map_cons, List.map_append, List.map_map, List.map_nil]
  exact congrArg (_ ++ [·]) hlast

/-- On a string of at least one pixel the sequence colours every pixel in ascending order, then transmits (R113 to R117). -/
theorem hostShowRainbow_eq {n : Nat} (h : 0 < n) :
    hostShowRainbow n = (List.range n).map (rainbowPixel n) ++ hostShow := by
  match n, h with
  | 1, _ => decide
  | m + 2, _ =>
    rw [hostShowRainbow, if_neg (by omega), if_neg (by omega), Int.toNat_natCast, rainbowRamp_pixels, hostShow]

/-- Every hue of the rainbow is a small number: an interior one is at most two turns, since `i` steps of `35900 div n` are
no more than `35900`. -/
theorem rainbowHue_bounds {n i : Nat} (h : i < n) : 0 ≤ rainbowHue n i ∧ rainbowHue n i ≤ 35901 := by
  have hstep : (0 : Int) ≤ 35900 / n := by positivity
  have hsum : (i : Int) * (35900 / n) ≤ 35900 :=
    calc (i : Int) * (35900 / n) ≤ n * (35900 / n) := by gcongr
      _ ≤ 35900 := Int.mul_ediv_self_le (by omega)
  have hnonneg : (0 : Int) ≤ i * (35900 / n) := by positivity
  unfold rainbowHue
  split_ifs <;> omega

/-! ## The bytes the rainbow writes -/

section Rainbow
variable {s : State} {i : Nat}

/-- The byte count of a window fits 32 bits, so its pixels have positive signed indices. -/
theorem State.Inv.length_lt (hi : s.Inv) : s.length.toNat < 2 ^ 31 := by
  have hwindow := hi.windowFits
  have hsize := s.size.isLt
  rcases stride_cases s with h | h <;> rw [h] at hwindow <;> omega

/-- Every pixel of the window can be named by a signed operand (R92). -/
theorem State.Inv.logicalPixel_ofInt (hi : s.Inv) (h : i < s.length.toNat) :
    s.logicalPixel (BitVec.ofInt 32 i) = some i := by
  have hindex : (BitVec.ofInt 32 i).toInt = i := by
    have := hi.length_lt
    exact BitVec.toInt_ofInt_eq_self (by decide) (by omega) (by omega)
  rw [logicalPixel_of_range (by omega) (by omega), hindex, Int.toNat_natCast]

/-- HSL answers the colour of its operands when they fit their fields (R49, R65). -/
theorem exec_asmHsl {hue sat lum : Int} (hhue : (BitVec.ofInt 32 hue).toInt = hue)
    (hsat : (BitVec.ofInt 16 sat).toInt = sat) (hlum : (BitVec.ofInt 16 lum).toInt = lum) (s : State) :
    exec (asmHsl hue sat lum) s = .next (s.respond .ok (hslColour hue sat lum)) := by
  rw [asmHsl, exec_hsl, hhue, hsat, hlum]

/-- The data of the response just given. -/
@[simp] theorem lastData_respond (s : State) (st : Status) (d : Word) : (s.respond st d).lastData = d := by
  simp [State.lastData]

/-- A packed colour taken from a response is SETPIX's operand as it stands (R49). -/
theorem asmSetpix_word (index : Int) (c : Word) : asmSetpix index c.toNat = .setpix (BitVec.ofInt 32 index) c := by
  rw [asmSetpix, BitVec.ofInt_natCast, BitVec.ofNat_toNat, BitVec.setWidth_eq]

/-- Colouring a pixel of the window is a pixel write of the colour HSL answers, and two responses (R115, R116). -/
theorem runEntry_colourPixel (hi : s.Inv) (h : i < s.length.toNat) {hue sat lum : Int}
    (hhue : (BitVec.ofInt 32 hue).toInt = hue) (hsat : (BitVec.ofInt 16 sat).toInt = sat)
    (hlum : (BitVec.ofInt 16 lum).toInt = lum) :
    runEntry (.colourPixel hue sat lum i) s = .next { s with
      buf := Memory.writeAll s.buf (s.pixelWrites (i + s.start.toNat) (hslColour hue sat lum))
      responses := s.responses ++ [⟨.ok, hslColour hue sat lum⟩] ++ [⟨.ok, 0#32⟩] } := by
  have hinv := hi.respond .ok (hslColour hue sat lum)
  have hset := exec_setpix (rgb := hslColour hue sat lum) hinv (hinv.logicalPixel_ofInt h)
  rw [runEntry, issue, step_present_encode s rfl, exec_asmHsl hhue hsat hlum, andThen, lastData_respond, issue,
    asmSetpix_word, step_present_encode _ rfl, hset]
  rfl

/-- The bytes written when the pixels `is` of the window are coloured one after another. -/
def State.colourWrites (s : State) (colour : Nat → Word) (is : List Nat) : List (Nat × Byte) :=
  is.flatMap fun i => s.pixelWrites (i + s.start.toNat) (colour i)

@[simp] theorem colourWrites_singleton (s : State) (colour : Nat → Word) (i : Nat) :
    s.colourWrites colour [i] = s.pixelWrites (i + s.start.toNat) (colour i) :=
  List.flatMap_singleton ..

/-- Pixel writes that share an address are to one pixel. -/
theorem pixel_eq_of_mem_pixelWrites {p q : Nat} {c d : Word} {w w' : Nat × Byte} (hw : w ∈ s.pixelWrites p c)
    (hw' : w' ∈ s.pixelWrites q d) (h : w.1 = w'.1) : p = q := by
  obtain ⟨b, hb, he⟩ := mem_pixelWrites hw
  obtain ⟨b', hb', he'⟩ := mem_pixelWrites hw'
  have hstride : 3 ≤ s.stride := by rcases stride_cases s with h | h <;> omega
  exact (pixelAddress_inj (st := s.stride) (by omega) (by omega) (he.symm.trans (h.trans he'))).1

/-- After colouring, each coloured pixel holds its own colour: no two pixels share an address. -/
theorem read_writeAll_colourWrites (m : Memory) {colour : Nat → Word} {is : List Nat} (hmem : i ∈ is)
    {w : Nat × Byte} (hw : w ∈ s.pixelWrites (i + s.start.toNat) (colour i)) :
    Memory.read (Memory.writeAll m (s.colourWrites colour is)) w.1 = some w.2 := by
  refine read_writeAll_eq _ _ (List.mem_flatMap.2 ⟨i, hmem, hw⟩) fun w' hw' haddr => ?_
  obtain ⟨j, -, hpixel⟩ := List.mem_flatMap.1 hw'
  obtain rfl := Nat.add_right_cancel (pixel_eq_of_mem_pixelWrites hpixel hw haddr)
  exact pixelWrites_functional hpixel hw haddr

/-- The pixel writes of a pixel of the window are writes inside it, and none to a white byte (R91). -/
theorem inWindow_of_mem_pixelWrites {c : Word} {w : Nat × Byte} (h : i < s.length.toNat)
    (hw : w ∈ s.pixelWrites (i + s.start.toNat) c) : s.inWindow w.1 ∧ ¬(s.mode = .rgbW ∧ w.1 % 4 = 3) := by
  obtain ⟨b, hb, he⟩ := mem_pixelWrites hw
  rw [Nat.add_comm i] at he
  refine ⟨(windowWrite_pixel h hb he).1, ?_⟩
  rintro ⟨hm, hwhite⟩
  rw [stride_of_rgbW hm] at he
  omega

/-- Colouring pixels of the window writes neither outside it nor a white byte (R91). -/
theorem read_writeAll_colourWrites_other (m : Memory) {colour : Nat → Word} {is : List Nat}
    (his : ∀ i ∈ is, i < s.length.toNat) {a : Nat} (ha : ¬s.inWindow a ∨ (s.mode = .rgbW ∧ a % 4 = 3)) :
    Memory.read (Memory.writeAll m (s.colourWrites colour is)) a = Memory.read m a := by
  refine read_writeAll_other _ _ ?_
  rintro w hw rfl
  obtain ⟨i, hmem, hpixel⟩ := List.mem_flatMap.1 hw
  obtain ⟨hin, hnotWhite⟩ := inWindow_of_mem_pixelWrites (his i hmem) hpixel
  exact ha.elim (· hin) hnotWhite

/-- The state after the pixels `is` of the window are coloured one after another, with the responses `rs`. -/
def State.coloured (s : State) (colour : Nat → Word) (is : List Nat) (rs : List Response) : State :=
  { s with buf := Memory.writeAll s.buf (s.colourWrites colour is), responses := s.responses ++ rs }

/-- Colouring pixels of the window keeps the invariant. -/
theorem State.Inv.coloured (hi : s.Inv) {is : List Nat} (his : ∀ i ∈ is, i < s.length.toNat) (colour : Nat → Word)
    (rs : List Response) : (s.coloured colour is rs).Inv := by
  have hlive : ∀ w ∈ s.colourWrites colour is, w.1 < s.size.toNat := fun w hw => by
    obtain ⟨i, hmem, hpixel⟩ := List.mem_flatMap.1 hw
    exact hi.window_live (inWindow_of_mem_pixelWrites (his i hmem) hpixel).1
  exact ⟨hi.sizeFits, hi.sizeMultiple, hi.windowFits, hi.modeLegal, hi.keys_writeAll hlive⟩

/-- Colouring one pixel and then the others is colouring them all. -/
theorem State.coloured_cons (s : State) (colour : Nat → Word) (i : Nat) (is : List Nat) (rs rs' : List Response) :
    (s.coloured colour [i] rs).coloured colour is rs' = s.coloured colour (i :: is) (rs ++ rs') := by
  have hwrites : (s.coloured colour [i] rs).colourWrites colour is = s.colourWrites colour is := rfl
  rw [State.coloured, hwrites]
  simp only [State.coloured, State.colourWrites, Memory.writeAll, List.flatMap_cons, List.flatMap_nil, List.foldl_append,
    List.foldl_nil, List.append_assoc]

/-- One entry of the rainbow colours its pixel and gives two responses. -/
theorem runEntry_rainbowPixel (hi : s.Inv) (h : i < s.length.toNat) : ∃ rs : List Response, rs.length = 2 ∧
    runEntry (rainbowPixel s.length.toNat i) s =
      .next (s.coloured (rainbowColour s.length.toNat) [i] rs) := by
  obtain ⟨hlow, hhigh⟩ := rainbowHue_bounds h
  have hhue := BitVec.toInt_ofInt_eq_self (w := 32) (by decide) (by omega)
    (by omega : rainbowHue s.length.toNat i < 2 ^ 31)
  refine ⟨[⟨.ok, rainbowColour s.length.toNat i⟩, ⟨.ok, 0#32⟩], rfl, ?_⟩
  rw [rainbowPixel, runEntry_colourPixel hi h hhue (by decide) (by decide), List.append_assoc, State.coloured,
    colourWrites_singleton]
  rfl

/-- Running the entries of pixels of the window colours them in order and gives two responses for each. -/
theorem runHost_rainbowPixels (is : List Nat) : ∀ {s : State}, s.Inv → (∀ i ∈ is, i < s.length.toNat) →
    ∃ rs : List Response, rs.length = 2 * is.length ∧
      ∀ es, runHost (is.map (rainbowPixel s.length.toNat) ++ es) s =
        runHost es (s.coloured (rainbowColour s.length.toNat) is rs) := by
  induction is with
  | nil => exact fun {s} _ _ => ⟨[], rfl, fun es => by rw [State.coloured, List.append_nil]; rfl⟩
  | cons i is ih =>
    intro s hi his
    obtain ⟨hlt, hrest⟩ := List.forall_mem_cons.1 his
    obtain ⟨rs, hrs, hentry⟩ := runEntry_rainbowPixel hi hlt
    have hinv := hi.coloured (is := [i]) (List.forall_mem_singleton.2 hlt) (rainbowColour s.length.toNat) rs
    obtain ⟨rs', hrs', hrun⟩ := ih hinv hrest
    refine ⟨rs ++ rs', by rw [List.length_append, hrs, hrs', List.length_cons]; omega, fun es => ?_⟩
    rw [List.map_cons, List.cons_append, runHost, hentry, ← State.coloured_cons]
    exact hrun es

end Rainbow

/-- Settles O51: the sequence is a list of pixels and one SHOW; the pixels are all those of the window, each with its own
colour, and SHOW transmits the buffer they leave. -/
theorem rainbowColoursEveryPixelAndTransmits : Obligations.RainbowColoursEveryPixelAndTransmits := by
  unfold Obligations.RainbowColoursEveryPixelAndTransmits
  constructor
  · intro length h
    rw [hostShowRainbow, if_pos h]
    exact ⟨rfl, fun _ => rfl⟩
  · intro s hi hpos
    have hpixels : ∀ i ∈ List.range s.length.toNat, i < s.length.toNat := fun i => List.mem_range.1
    obtain ⟨rs, hrs, hrun⟩ := runHost_rainbowPixels (List.range s.length.toNat) hi hpixels
    obtain ⟨bytes, hlength, hread, hshow⟩ := runHost_hostShow (hi.coloured hpixels (rainbowColour s.length.toNat) rs)
    have hall := (hrun hostShow).trans hshow
    rw [← hostShowRainbow_eq hpos] at hall
    refine ⟨_, bytes, hall, rfl, hlength, hread, ?responses, ?pixels,
      fun a => read_writeAll_colourWrites_other s.buf hpixels⟩
    case responses => simp only [State.coloured, List.length_append, hrs, List.length_range, List.length_singleton]
    case pixels =>
      rintro i hlt _ _ rfl rfl _ rfl
      have hbyte := fun w hw => read_writeAll_colourWrites (s := s) (w := w) (colour := rainbowColour s.length.toNat)
        s.buf (List.mem_range.2 hlt) hw
      simp only [pixelWrites_eq s _ _ rfl rfl rfl, List.forall_mem_cons] at hbyte
      obtain ⟨h0, h1, h2, -⟩ := hbyte
      simp only [apply_ite (scaleChannel s.brightness), unpackRed_eq, unpackGreen_eq, unpackBlue_eq]
      exact ⟨h0, h1, h2⟩

end Sys2Proof.Machine
end

section
/-! PROOFS. The errors (spec/60_exceptions.md): when each is raised (R120 to R123, R125), that a failed command leaves no
trace (R126, R127), and that the commands before the first CREATE are harmless (R124, R137). -/

namespace Sys2Proof.Machine

/-! ## When an error is raised -/

/-- The condition under which a command raises an error, by the status that names it (R120 to R123); OK is no error. -/
def Raises (s : State) (i : Instr) : Status → Prop
  | .ok => False
  | .illegal => ∃ n pin, i = .create n 3#2 pin
  | .alloc => ∃ n mode pin, i = .create n mode pin ∧ mode ≠ 3#2 ∧ s.cap < n.toNat * (if mode = 1#2 then 4 else 3)
  | .range => ∃ start length, i = .setrange start length ∧
      s.size.toNat < (start.toNat + length.toNat) * (if s.mode = .rgbW then 4 else 3)

section Errors
variable {s t : State} {i : Instr} {r : Response} {error : Status}

/-- A command whose condition for an error holds raises it, and that is all it does (R126). -/
theorem exec_of_raises (h : Raises s i error) : exec i s = .next (s.respond error 0#32) := by
  cases error with
  | ok => exact h.elim
  | illegal =>
    obtain ⟨n, pin, rfl⟩ := h
    rfl
  | alloc =>
    obtain ⟨n, mode, pin, rfl, hmode, hcap⟩ := h
    obtain ⟨layout, hl⟩ := exists_layoutOfCode hmode
    rw [← bytesNeeded_eq hl] at hcap
    exact exec_create_of_allocFails hl hcap
  | range =>
    obtain ⟨start, length, rfl, hsize⟩ := h
    rw [← stride_eq] at hsize
    exact exec_setrange_of_rangeFails hsize

/-- A command that completes answers OK, or raises an error whose condition holds and does nothing else. -/
theorem Effect.ok_or_raises (h : Effect s i t) :
    (∃ d, t.responses = s.responses ++ [⟨.ok, d⟩]) ∨ ∃ error, Raises s i error ∧ t = s.respond error 0#32 := by
  cases h with
  | illegal n mode pin hl =>
    obtain rfl := layoutOfCode_eq_none.1 hl
    exact .inr ⟨.illegal, ⟨n, pin, rfl⟩, rfl⟩
  | alloc n mode pin layout hl hcap =>
    have hmode : mode ≠ 3#2 := fun h3 => Option.some_ne_none layout (hl.symm.trans (layoutOfCode_eq_none.2 h3))
    exact .inr ⟨.alloc, ⟨n, mode, pin, rfl, hmode, bytesNeeded_eq hl n ▸ hcap⟩, rfl⟩
  | range start length hsize => exact .inr ⟨.range, ⟨start, length, rfl, stride_eq s ▸ hsize⟩, rfl⟩
  | answer | create | window | setbr | setbrp | store | shown => exact .inl ⟨_, rfl⟩

/-- A command that did not answer OK raised the error its status names, and did nothing else. -/
theorem Effect.raises_status (h : Effect s i t) (hr : t.responses = s.responses ++ [r]) (hne : r.status ≠ .ok) :
    Raises s i r.status ∧ t = s.respond r.status 0#32 ∧ r.data = 0#32 := by
  obtain ⟨d, hok⟩ | ⟨error, hraises, rfl⟩ := h.ok_or_raises
  · obtain rfl := List.singleton_inj.1 (List.append_cancel_left (hr.symm.trans hok))
    exact absurd rfl hne
  · obtain rfl := List.singleton_inj.1 (List.append_cancel_left hr)
    exact ⟨hraises, rfl, rfl⟩

/-- A response carries an error exactly when the condition of the error holds. -/
theorem status_eq_iff_raises (h : exec i s = .next t) (hr : t.responses = s.responses ++ [r]) (herror : error ≠ .ok) :
    r.status = error ↔ Raises s i error := by
  constructor
  · rintro rfl
    obtain ⟨hraises, -, -⟩ := (exec_effect h).raises_status hr herror
    exact hraises
  · intro hraises
    obtain rfl := Host.Outcome.next.inj (h.symm.trans (exec_of_raises hraises))
    obtain rfl := List.singleton_inj.1 (List.append_cancel_left hr)
    rfl

end Errors

/-- Settles O11: the command gives one response, whose status is each of the errors exactly when `Raises` says. -/
theorem errorsAreRaisedExactlyWhenTheirConditionHolds : Obligations.ErrorsAreRaisedExactlyWhenTheirConditionHolds := by
  unfold Obligations.ErrorsAreRaisedExactlyWhenTheirConditionHolds
  intro i s t h
  obtain ⟨r, -, hr, -⟩ := (exec_effect h).responds_once
  exact ⟨r, hr, status_eq_iff_raises h hr nofun, status_eq_iff_raises h hr nofun, status_eq_iff_raises h hr nofun⟩

/-- Settles O12: a step with a word to take executes a command, which raised the error it answered with, or rejects the
word, which is an error too. -/
theorem failedCommandsLeaveNoTrace : Obligations.FailedCommandsLeaveNoTrace := by
  unfold Obligations.FailedCommandsLeaveNoTrace
  rintro s t w ws ⟨status, data⟩ hc h hr hne
  obtain ⟨hnil, -⟩ | ⟨w', ws', hc', ⟨i, -, he⟩ | ⟨-, rfl⟩⟩ := step_effect h
  · rw [hc] at hnil; cases hnil
  · rw [hc] at hc'; cases hc'
    obtain ⟨-, rfl, rfl⟩ := he.raises_status hr hne
    exact ⟨rfl, rfl⟩
  · rw [hc] at hc'; cases hc'
    obtain ⟨⟩ := List.singleton_inj.1 (List.append_cancel_left hr)
    exact ⟨rfl, rfl⟩

/-! ## Before the first CREATE -/

section Empty
variable {s t : State} {i : Instr}

/-- With no live byte the window is empty and starts at 0, and the buffer lists no byte (R18, R137). -/
theorem State.Inv.empty (hi : s.Inv) (hsize : s.size = 0#32) : s.start = 0#32 ∧ s.length = 0#32 ∧ s.buf = [] := by
  have hzero : s.size.toNat = 0 := by rw [hsize]; rfl
  have hwindow : (s.start.toNat + s.length.toNat) * s.stride = 0 := Nat.le_zero.1 (hzero ▸ hi.windowFits)
  obtain ⟨hstart, hlength⟩ := Nat.add_eq_zero_iff.1 ((Nat.mul_eq_zero.1 hwindow).resolve_right (stride_pos s).ne')
  have hkeys := hi.liveBytes
  rw [hzero, List.range_zero, List.map_eq_nil_iff] at hkeys
  exact ⟨BitVec.eq_of_toNat_eq hstart, BitVec.eq_of_toNat_eq hlength, hkeys⟩

/-- With no live byte, a command other than CREATE can change no part of the string but `BRIGHTNESS`: the invariant, which
it keeps, leaves one window and one buffer. -/
theorem Effect.sameString_of_empty (h : Effect s i t) (hi : s.Inv) (hsize : s.size = 0#32)
    (hc : ∀ n m p, i ≠ .create n m p) : s.SameString { t with brightness := s.brightness } := by
  obtain ⟨hmode, hsize', hpin⟩ := h.mode_size_pin hc
  have hinv : t.Inv := h.inv hi fun n m p he => absurd he (hc n m p)
  obtain ⟨hstart, hlength, hbuf⟩ := hi.empty hsize
  obtain ⟨hstart', hlength', hbuf'⟩ := hinv.empty (hsize'.trans hsize)
  exact ⟨h.cap_commands.1, hmode, hsize', hstart'.trans hstart.symm, hlength'.trans hlength.symm, rfl, hpin,
    hbuf'.trans hbuf.symm⟩

/-- With no live byte SHOW transmits no byte (R97, R137). -/
theorem exec_showBuf_of_empty (hi : s.Inv) (hsize : s.size = 0#32) :
    exec .showBuf s = .next ((s.emit (.transmit s.pin [])).respond .ok 0#32) := by
  obtain ⟨bytes, hbytes, hexec⟩ := exec_showBuf hi
  rw [hsize] at hbytes
  rw [hexec, List.map_eq_nil_iff.1 hbytes]

/-- With no live byte, what a command other than CREATE emits is SHOW's empty `Transmit` (R137). -/
theorem events_of_empty (h : exec i s = .next t) (hi : s.Inv) (hsize : s.size = 0#32)
    (hc : ∀ n m p, i ≠ .create n m p) :
    t.events = if i = .showBuf then s.events ++ [.transmit s.pin []] else s.events := by
  split_ifs with hs
  · subst hs
    obtain rfl := Host.Outcome.next.inj (h.symm.trans (exec_showBuf_of_empty hi hsize))
    rfl
  · exact (exec_effect h).events hc hs

/-- With no live byte, the only error of a command other than CREATE is RANGE, of a SETRANGE that is not `0, 0` (R124). -/
theorem Raises.range_of_empty {error : Status} (h : Raises s i error) (hsize : s.size = 0#32)
    (hc : ∀ n m p, i ≠ .create n m p) :
    error = .range ∧ ∃ a b, i = .setrange a b ∧ ¬(a = 0#32 ∧ b = 0#32) := by
  cases error with
  | ok => exact h.elim
  | illegal =>
    obtain ⟨n, pin, he⟩ := h
    exact absurd he (hc _ _ _)
  | alloc =>
    obtain ⟨n, mode, pin, he, -⟩ := h
    exact absurd he (hc _ _ _)
  | range =>
    obtain ⟨a, b, he, hlt⟩ := h
    refine ⟨rfl, a, b, he, ?_⟩
    rintro ⟨rfl, rfl⟩
    rw [hsize] at hlt
    simp at hlt

end Empty

/-- Settles O44: the invariant lets the command complete; what it answers, keeps and emits is as the lemmas on the empty
string say. -/
theorem commandsBeforeCreateAreHarmless : Obligations.CommandsBeforeCreateAreHarmless := by
  unfold Obligations.CommandsBeforeCreateAreHarmless
  intro i s hi hsize _ hc
  obtain ⟨t, h⟩ := hi.exec_completes i
  have he := exec_effect h
  obtain ⟨r, -, hr, -⟩ := he.responds_once
  refine ⟨t, r, h, hr, ?status, he.sameString_of_empty hi hsize hc, he.brightness hc, events_of_empty h hi hsize hc⟩
  case status =>
    refine or_iff_not_imp_left.2 fun hne => ?_
    obtain ⟨hraises, -, -⟩ := he.raises_status hr hne
    exact hraises.range_of_empty hsize hc

end Sys2Proof.Machine
end

section
/-! PROOFS. CREATE as a second reset (spec/70_reset_and_hazards.md R135). -/

namespace Sys2Proof.Machine

/-- A string of no pixels is the reset state: `SIZE` and the window are 0, and no byte is live (R21, R80). What the host has
presented and the core has given stays; the layout and the pin are the ones asked for. -/
theorem makeString_zero (s : State) (layout : Layout) (pin : Byte) :
    s.makeString layout 0#32 pin = { State.resetWith s.cap with
      mode := layout, pin := pin, commands := s.commands, responses := s.responses, events := s.events } := by
  have hbytes : bytesNeeded layout 0#32 = 0 := Nat.zero_mul _
  have hsize : sizeRegister (bytesNeeded layout 0#32) = 0#32 := by rw [hbytes]; rfl
  rw [State.makeString, hsize]
  rfl

/-- Settles O43: no pixels fit every `CAP`, so CREATE makes the string of no pixels, which is the reset state. -/
theorem createZeroRestoresTheResetRegisters : Obligations.CreateZeroRestoresTheResetRegisters := by
  unfold Obligations.CreateZeroRestoresTheResetRegisters
  intro s
  have hfits : bytesNeeded .rgb 0#32 ≤ s.cap := Nat.zero_le _
  rw [exec_create_of_fits rfl hfits, makeString_zero]
  rfl

end Sys2Proof.Machine
end

section
/-! PROOFS. The canonical form of the memory (log 4): addresses strictly rising, in every state a step can answer. -/

namespace Sys2Proof.Machine

/-- A command keeps the memory canonical: only CREATE and the pixel commands touch the buffer (R22), and a fresh buffer is
canonical, as is a canonical one after any list of writes. -/
theorem Effect.memory_wf {s t : State} {i : Instr} (h : Effect s i t) (hwf : Memory.wf s.buf) : Memory.wf t.buf := by
  cases h with
  | create n mode pin layout => exact zeroed_wf (sizeRegister (bytesNeeded layout n)).toNat
  | store _ ws => exact writeAll_wf s.buf ws hwf
  | answer | illegal | alloc | range | window | setbr | setbrp | shown => exact hwf

/-- Settles O48: a step that completes has one of the effects of `step_effect`; taking or rejecting a word leaves the buffer
as it was, and a command keeps it canonical. -/
theorem everyStepKeepsMemoryCanonical : Obligations.EveryStepKeepsMemoryCanonical := by
  unfold Obligations.EveryStepKeepsMemoryCanonical
  intro s t hwf h
  obtain ⟨-, rfl⟩ | ⟨w, ws, -, ⟨i, -, he⟩ | ⟨-, rfl⟩⟩ := step_effect h
  · exact hwf
  · exact he.memory_wf hwf
  · exact hwf

end Sys2Proof.Machine
end
